-- ==== Sys2Proof/Word.lean ====
section
/-! DEFINITION. The word types of dc_blocker_iir (spec/00_scope.md rule R6, table "Parameters of rule R6").
Only widths stand here; every operation on them is in Machine/Ops.lean. -/

namespace Sys2Proof

/-- A byte of the platform's memory (R40). -/
abbrev Byte := BitVec 8

/-- A buffer element: 16 bits for input and for output (R42; `IN_ELEM_BITS`, `OUT_ELEM_BITS` of R6). -/
abbrev Half := BitVec 16

/-- A command word, an operand word, a configuration register (R60; `COEF_W`, `SEL_W`, `COUNT_W`, `ADDR_W` of R6). -/
abbrev Word := BitVec 32

/-- A data register or a result-stream entry (R11, R31; `WIDE` of R6). -/
abbrev Wide := BitVec 64

end Sys2Proof
end

