-- ==== Sys2Proof/Config.lean ====
section
/-! DEFINITION. What the implementation fixes (spec/00_scope.md rules R5 to R7) and the OPEN parameters of R6 that
are values: constants without a body, so that no proof can see what they are. The OPEN predicate `MemValid` is
plain data in State instead (notes/assumptions/2.md). -/

namespace Sys2Proof

/-- A coefficient quadruple `(a2, b0, b1, b2)` of the ROM, each a 32-bit two's-complement integer (R15, R81). -/
structure Quad where
  a2 : Word
  b0 : Word
  b1 : Word
  b2 : Word
  deriving DecidableEq, Repr, Inhabited

/-- The five profiles: the supported selector set `{3, 6, 9, 12, 32}` of R5. -/
inductive Profile where
  | s3
  | s6
  | s9
  | s12
  | s32
  deriving DecidableEq, Repr

/-- The registers `RDREG` can name (spec/10_state.md, table "Register numbers (rule R26)"). -/
inductive RegName where
  | acc
  | x1
  | x2
  | y1
  | y2
  | ca2
  | cb0
  | cb1
  | cb2
  | sel
  | status
  | racc
  | rcoef
  | rout
  deriving DecidableEq, Repr

namespace Config

/-- `HAS_REFDC` of R6 and R7: this hardware is built without the reference blocker. -/
def hasRefDc : Bool := false

/-- `ROM[6]`, OPEN (R84, U9): a free value, notes/assumptions/4.md. -/
opaque rom6 : Quad

/-- `ROM[9]`, OPEN (R84, U9): a free value, notes/assumptions/4.md. -/
opaque rom9 : Quad

/-- `ROM[12]`, OPEN (R84, U9): a free value, notes/assumptions/4.md. -/
opaque rom12 : Quad

/-- `ROM[32]`, OPEN (R84, U9): a free value, notes/assumptions/4.md. -/
opaque rom32 : Quad

/-- `RefPre`, OPEN (R128, U11): from the 32-bit operand to a 64-bit integer; a free value, notes/assumptions/5.md. -/
opaque refPre : Word → Wide

end Config

end Sys2Proof
end

