-- ==== Sys2Proof/Syntax.lean ====
section
/-! DEFINITION. The commands of dc_blocker_iir, one constructor per row of spec/opcode_table.json, operands as
spec/30_encoding.md rule R67 assembles them (whole words; the integer readings are in Machine/Operands.lean). -/

namespace Sys2Proof

/-- A command (R68). -/
inductive Instr where
  /-- `INIT sel` (R80). -/
  | init (sel : Word)
  /-- `PROC out, in, count` (R115). -/
  | proc (out inp count : Word)
  /-- `RSTATE` (R135). -/
  | rstate
  /-- `RDREG reg` (R137). -/
  | rdreg (r : RegName)
  /-- `RDC.SET coeff` (R126), only where `HAS_REFDC = 1`. -/
  | rdcSet (coeff : Word)
  /-- `RDC.STEP input` (R127), only where `HAS_REFDC = 1`. -/
  | rdcStep (input : Word)
  deriving DecidableEq, Repr

end Sys2Proof
end

