-- ==== Sys2Proof/WellFormed.lean ====
section
/-! DEFINITION. Which commands exist on a build: the two checks that depend on `HAS_REFDC`
(spec/30_encoding.md rules R69, R71; spec/93_implementation_defined.md U4, U5). -/

namespace Sys2Proof

/-- Registers 11 to 13 exist only where the reference blocker does (R26). -/
def RegName.existsIn (refdc : Bool) : RegName → Bool
  | .acc => true
  | .x1 => true
  | .x2 => true
  | .y1 => true
  | .y2 => true
  | .ca2 => true
  | .cb0 => true
  | .cb1 => true
  | .cb2 => true
  | .sel => true
  | .status => true
  | .racc => refdc
  | .rcoef => refdc
  | .rout => refdc

/-- The command exists on a build with `HAS_REFDC = refdc`: `RDC.SET` and `RDC.STEP` only with the option (R71),
`RDREG` only of an existing register (R69). -/
def WellFormed (refdc : Bool) : Instr → Bool
  | .init _ => true
  | .proc _ _ _ => true
  | .rstate => true
  | .rdreg r => r.existsIn refdc
  | .rdcSet _ => refdc
  | .rdcStep _ => refdc

end Sys2Proof
end

