-- ==== Sys2Proof/Decode.lean ====
section
/-! DEFINITION. The decoder (spec/30_encoding.md rule R73, total over every header word, rejecting by name) and,
after it, the encoder written from the same tables (R61 to R68). Words are values: there is no byte order (R60). -/

namespace Sys2Proof

/-! ### Decoding -/

/-- Why a header is an illegal command, in the order R73 tests it. All four are fault cause 1 (R147). -/
inductive IllegalHeader where
  /-- Bits 31:16 are not all zero (R69). -/
  | reservedBits
  /-- OP is reserved on this build (R70, R71). -/
  | reservedOpcode
  /-- R is not zero outside `RDREG` (R69). -/
  | nonzeroR
  /-- `RDREG` of a register number that names nothing on this build (R69). -/
  | noSuchRegister
  deriving DecidableEq, Repr

/-- A legal header: which command, and for `RDREG` which register. -/
inductive Opcode where
  | init
  | proc
  | rstate
  | rdreg (r : RegName)
  | rdcSet
  | rdcStep
  deriving DecidableEq, Repr

/-- What one header word is: exactly one legal command, or illegal (R73). -/
inductive Header where
  | illegal (why : IllegalHeader)
  | legal (op : Opcode)
  deriving DecidableEq, Repr

/-- What the decoder makes of the words from `pc` on. -/
inductive Decoded where
  /-- No header yet, or a legal header whose operand words are not all delivered (R163). -/
  | wait
  /-- An illegal header; no operand word is looked at (R70). -/
  | illegal (why : IllegalHeader)
  /-- A whole command. -/
  | command (i : Instr)
  deriving DecidableEq, Repr

/-- OP, bits 7:0 of the header (R61). -/
def opField (h : Word) : BitVec 8 := h.extractLsb' 0 8

/-- R, bits 15:8 of the header (R61). -/
def regField (h : Word) : BitVec 8 := h.extractLsb' 8 8

/-- Bits 31:16 of the header, which must be zero (R61). -/
def reservedField (h : Word) : BitVec 16 := h.extractLsb' 16 16

/-- The register with number `r`, whatever the build (R26); 14 to 255 name nothing. -/
def RegName.ofNumber (r : BitVec 8) : Option RegName :=
  match r.toNat with
  | 0 => some .acc
  | 1 => some .x1
  | 2 => some .x2
  | 3 => some .y1
  | 4 => some .y2
  | 5 => some .ca2
  | 6 => some .cb0
  | 7 => some .cb1
  | 8 => some .cb2
  | 9 => some .sel
  | 10 => some .status
  | 11 => some .racc
  | 12 => some .rcoef
  | 13 => some .rout
  | _ => none

/-- A header with no register field: legal only if R is 0 (R69). -/
def plainHeader (op : Opcode) (h : Word) : Header :=
  if regField h = 0 then .legal op else .illegal .nonzeroR

/-- An `RDREG` header: legal only if R names an existing register (R69). -/
def rdregHeader (refdc : Bool) (h : Word) : Header :=
  match RegName.ofNumber (regField h) with
  | some r => if r.existsIn refdc then .legal (.rdreg r) else .illegal .noSuchRegister
  | none => .illegal .noSuchRegister

/-- A header of the reference blocker: reserved unless the build has it (R71). -/
def refdcHeader (refdc : Bool) (op : Opcode) (h : Word) : Header :=
  if refdc then plainHeader op h else .illegal .reservedOpcode

/-- R73: the header's tests in the spec's order, over the opcode map of R68. -/
def decodeHeader (refdc : Bool) (h : Word) : Header :=
  if reservedField h ≠ 0 then .illegal .reservedBits
  else
    match (opField h).toNat with
    | 0x01 => plainHeader .init h
    | 0x02 => plainHeader .proc h
    | 0x03 => plainHeader .rstate h
    | 0x04 => rdregHeader refdc h
    | 0x10 => refdcHeader refdc .rdcSet h
    | 0x11 => refdcHeader refdc .rdcStep h
    | _ => .illegal .reservedOpcode

/-- Takes the operand words after a legal header, in the order written, without reading them as headers (R62, R65,
R66); none while some are missing. -/
def assemble (op : Opcode) (rest : List Word) : Option Instr :=
  match op, rest with
  | .init, w1 :: _ => some (.init w1)
  | .proc, w1 :: w2 :: w3 :: _ => some (.proc w1 w2 w3)
  | .rstate, _ => some .rstate
  | .rdreg r, _ => some (.rdreg r)
  | .rdcSet, w1 :: _ => some (.rdcSet w1)
  | .rdcStep, w1 :: _ => some (.rdcStep w1)
  | _, _ => none

/-- R73: decodes the command that begins the words `ws`, on a build with `HAS_REFDC = refdc`. The header is judged
before any operand word is waited for (R150). -/
def decode (refdc : Bool) (ws : List Word) : Decoded :=
  match ws with
  | [] => .wait
  | h :: rest =>
    match decodeHeader refdc h with
    | .illegal why => .illegal why
    | .legal op =>
      match assemble op rest with
      | some i => .command i
      | none => .wait

/-- The length `L` of a command in words (R62). -/
def Instr.words : Instr → Nat
  | .init _ => 2
  | .proc _ _ _ => 4
  | .rstate => 1
  | .rdreg _ => 1
  | .rdcSet _ => 2
  | .rdcStep _ => 2

/-- The four words, the longest command, that carry an instruction whose bits are `w`, bit 0 the least significant
bit of the first word; every bit from `nbits` up is 0. -/
def tableWords (nbits w : Nat) : List Word :=
  let v := w % 2 ^ nbits
  [BitVec.ofNat 32 v, BitVec.ofNat 32 (v / 2 ^ 32), BitVec.ofNat 32 (v / 2 ^ 64), BitVec.ofNat 32 (v / 2 ^ 96)]

/-- The instruction read from a table row's word, over the whole table: with the reference blocker's two rows, which
the table lists as present if `HAS_REFDC = 1` (notes/assumptions/6.md). -/
def decodeTableWord (nbits w : Nat) : Option Instr :=
  match decode true (tableWords nbits w) with
  | .command i => some i
  | .illegal _ => none
  | .wait => none

/-! ### Encoding -/

/-- The register's number (R26). -/
def RegName.number : RegName → BitVec 8
  | .acc => 0
  | .x1 => 1
  | .x2 => 2
  | .y1 => 3
  | .y2 => 4
  | .ca2 => 5
  | .cb0 => 6
  | .cb1 => 7
  | .cb2 => 8
  | .sel => 9
  | .status => 10
  | .racc => 11
  | .rcoef => 12
  | .rout => 13

/-- The header word of R61: reserved zeros, R, OP. -/
def headerWord (op r : BitVec 8) : Word := (0#16 ++ r ++ op : BitVec 32)

/-- The words of a command: the header and then the operand words in the order written (R63 to R66, R74). -/
def encode : Instr → List Word
  | .init sel => [headerWord 0x01 0, sel]
  | .proc out inp count => [headerWord 0x02 0, out, inp, count]
  | .rstate => [headerWord 0x03 0]
  | .rdreg r => [headerWord 0x04 r.number]
  | .rdcSet coeff => [headerWord 0x10 0, coeff]
  | .rdcStep input => [headerWord 0x11 0, input]

end Sys2Proof
end

