-- ==== Sys2Proof/Machine/State.lean ====
section
/-! DEFINITION. The state of the block, as plain data, its stops, and the state after reset
(spec/10_state.md; spec/20_memory.md rule R40; spec/60_exceptions.md). -/

namespace Sys2Proof.Machine

/-- STATUS.MODE (R17, R18). The value 3 is never produced (U12) and has no constructor. -/
inductive Mode where
  | uninitialized
  | configured
  | running
  deriving DecidableEq, Repr

/-- The six fault causes of R146. -/
inductive Cause where
  | illegalCommand
  | misalignedBuffer
  | notConfigured
  | bufferOverlap
  | busError
  | addressRange
  deriving DecidableEq, Repr

/-- FilterState: the five data registers (R10, R11). -/
structure FilterState where
  acc : Wide
  x1 : Wide
  x2 : Wide
  y1 : Wide
  y2 : Wide
  deriving DecidableEq, Repr

/-- FilterConfiguration: SEL and the four coefficient registers, always replaced together (R14 to R16). -/
structure FilterConfiguration where
  sel : Word
  ca2 : Word
  cb0 : Word
  cb1 : Word
  cb2 : Word
  deriving DecidableEq, Repr

/-- The reference blocker's registers (R23). RCOEF is none while it is unwritten (R27, R28, U8). -/
structure RefBlocker where
  racc : Wide
  rcoef : Option Wide
  rout : Wide
  deriving DecidableEq, Repr

/-- One region of the platform's map: the data behind `MemValid` (R48) and, with `device`, behind the refusal of
regions with side effects (R47, U6). -/
structure Region where
  base : Nat
  size : Nat
  readable : Bool
  writable : Bool
  device : Bool
  deriving DecidableEq, Repr

/-- The machine's state: INVENTORY.md, heading State, has a line for every field. -/
structure State where
  /-- ACC, X1, X2, Y1, Y2 (R10). -/
  filter : FilterState
  /-- SEL, CA2, CB0, CB1, CB2; none while unwritten (R28, U8; notes/assumptions/1.md). -/
  config : Option FilterConfiguration
  /-- STATUS.MODE (R18). -/
  mode : Mode
  /-- STATUS.FAULT is whether there is a cause; STATUS.CAUSE is its code (R17, R146). -/
  cause : Option Cause
  /-- The word index of the next header (R20). -/
  pc : Nat
  /-- The result stream, oldest first (R31). -/
  results : List Wide
  /-- The reference blocker; none on a build with `HAS_REFDC = 0` (R7, R23). -/
  refdc : Option RefBlocker
  /-- The command words delivered since reset: `CmdWord(k)` is entry `k` (R60). -/
  stream : List Word
  /-- The platform's memory as listed cells (R40); what an unlisted byte reads as is `Mem.unlisted`. -/
  mem : List Host.Cell
  /-- The platform's map (R48). -/
  regions : List Region
  deriving DecidableEq, Repr

/-- Reasons the model stops with a fault. A fault OF THE BLOCK (R146) is no such stop: it is a next state with FAULT
and CAUSE written (R152; notes/assumptions/9.md). -/
inductive Fault where
  /-- Raised by `readByte` and `writeByte` for an address outside `0` to `2^32 - 1` (R40): safe. The checks of R119
  come first, so no command reaches it. -/
  | noSuchAddress (addr : Nat)
  deriving DecidableEq, Repr

/-- Reasons the model refuses: situations the spec gives no behaviour and the hardware does not detect (R165). -/
inductive Refusal where
  /-- Raised by exec's arm of an instruction that has no meaning yet; no arm does: safe. -/
  | notModelled (mnemonic : String)
  /-- Raised by `dcbStep` for an input element above 4095 (R42, R94, U1): safe. -/
  | inputOutOfRange
  /-- Raised by `dcbStep`, `bqStep` and `RDC.STEP` when a value does not fit 64 bits (R8, R105, R129, U3): safe. -/
  | wideOverflow
  /-- Raised by `PROC` over a buffer in a region with side effects (R47, U6): safe. -/
  | deviceRegion
  deriving DecidableEq, Repr

/-- The zero-valued FilterState of R27. -/
def FilterState.zero : FilterState := { acc := 0, x1 := 0, x2 := 0, y1 := 0, y2 := 0 }

/-- The reference blocker after reset, where it exists (R27). -/
def RefBlocker.reset : RefBlocker := { racc := 0, rcoef := none, rout := 0 }

/-- The whole 32-bit address space, readable and writable: DESIGN CHOICE, notes/assumptions/2.md. -/
def Region.wholeSpace : Region :=
  { base := 0, size := 2 ^ 32, readable := true, writable := true, device := false }

/-- The state right after reset (R27, R170). No word has been delivered (R171). Memory lists nothing and the map is
the whole space: the platform's, DESIGN CHOICE, notes/assumptions/2.md and 3.md. -/
def State.reset : State :=
  { filter := FilterState.zero
    config := none
    mode := .uninitialized
    cause := none
    pc := 0
    results := []
    refdc := if Config.hasRefDc then some RefBlocker.reset else none
    stream := []
    mem := []
    regions := [Region.wholeSpace] }

end Sys2Proof.Machine
end

