-- ==== Sys2Proof/Machine/Ops.lean ====
section
/-! DEFINITION. The shared operations: outcomes, the integer primitives of spec/00_scope.md rule R9, memory
(spec/20_memory.md), fault entry (spec/60_exceptions.md rule R152) and the reset input beside it, command completion,
the result stream, the command port, and the host's other moves (R160). -/

namespace Sys2Proof.Machine

/-! ### Outcomes -/

/-- Goes on with the value of a next outcome; a fault or a refusal ends the whole. -/
def andThen {α β : Type} (o : Host.Outcome α Fault Refusal) (k : α → Host.Outcome β Fault Refusal) :
    Host.Outcome β Fault Refusal :=
  match o with
  | .next a => k a
  | .fault r => .fault r
  | .refused r => .refused r

/-- The value of a next outcome. -/
def nextOf {α : Type} (o : Host.Outcome α Fault Refusal) : Option α :=
  match o with
  | .next a => some a
  | .fault _ => none
  | .refused _ => none

/-! ### Integer primitives (R9) -/

/-- `asr(v, n) = floor(v / 2^n)`: the divisor is positive, so Lean's integer division is the floor (R9, R93). -/
def asr (v : Int) (n : Nat) : Int := v / (2 : Int) ^ n

/-- `shl(v, n) = v * 2^n`, also for negative `v` (R9, R93). -/
def shl (v : Int) (n : Nat) : Int := v * (2 : Int) ^ n

/-- `clamp(v, lo, hi)` (R9). -/
def clamp (v lo hi : Int) : Int := if v < lo then lo else if hi < v then hi else v

/-- `fits_s(64, v)` (R9): the value can be held in a 64-bit register. -/
def fitsWide (v : Int) : Bool := decide (-(2 : Int) ^ 63 ≤ v) && decide (v ≤ (2 : Int) ^ 63 - 1)

/-- The 64-bit two's-complement pattern of `v`. -/
def wide (v : Int) : Wide := BitVec.ofInt 64 v

/-! ### Memory (spec/20_memory.md) -/

/-- Memory as listed cells. -/
abbrev Mem := List Host.Cell

/-- What a byte nothing has written reads as. The spec gives memory no initial contents (R27): DESIGN CHOICE,
notes/assumptions/3.md. -/
def Mem.unlisted : Byte := 0

/-- The number of byte addresses (R40). -/
def addressLimit : Nat := 2 ^ 32

/-- The byte at address `a`. -/
def Mem.byteAt : Mem → Nat → Byte
  | [], _ => Mem.unlisted
  | (k, b) :: rest, a => if k = a then b else Mem.byteAt rest a

/-- The memory with byte `b` at address `a`, in the canonical form. -/
def Mem.put : Mem → Nat → Byte → Mem
  | [], a, b => if b = Mem.unlisted then [] else [(a, b)]
  | (k, c) :: rest, a, b =>
    if a < k then
      if b = Mem.unlisted then (k, c) :: rest else (a, b) :: (k, c) :: rest
    else if a = k then
      if b = Mem.unlisted then rest else (a, b) :: rest
    else (k, c) :: Mem.put rest a b

/-- The canonical form from address `lo` on: addresses strictly rising, each inside the address space, no cell equal
to what an unlisted address reads as. -/
def Mem.wfFrom : Nat → Mem → Bool
  | _, [] => true
  | lo, (k, b) :: rest =>
    decide (lo ≤ k) && decide (k < addressLimit) && !decide (b = Mem.unlisted) && Mem.wfFrom (k + 1) rest

/-- The canonical form of memory. -/
def Mem.wf (m : Mem) : Bool := Mem.wfFrom 0 m

/-- One byte read; an address outside the space does not exist (R40). -/
def readByte (m : Mem) (a : Nat) : Host.Outcome Byte Fault Refusal :=
  if a < addressLimit then .next (m.byteAt a) else .fault (.noSuchAddress a)

/-- One byte written; an address outside the space does not exist (R40). -/
def writeByte (m : Mem) (a : Nat) (b : Byte) : Host.Outcome Mem Fault Refusal :=
  if a < addressLimit then .next (m.put a b) else .fault (.noSuchAddress a)

/-- `MemRead(a, 2) = byte(a) + 256 * byte(a + 1)`: little-endian (R44). -/
def memRead16 (m : Mem) (a : Nat) : Host.Outcome Half Fault Refusal :=
  andThen (readByte m a) fun lo =>
  andThen (readByte m (a + 1)) fun hi =>
  .next (hi ++ lo : BitVec 16)

/-- `MemWrite(a, 2, v)`: bits 7:0 at `a`, bits 15:8 at `a + 1` (R44). -/
def memWrite16 (m : Mem) (a : Nat) (v : Half) : Host.Outcome Mem Fault Refusal :=
  andThen (writeByte m a (v.extractLsb' 0 8)) fun m1 =>
  writeByte m1 (a + 1) (v.extractLsb' 8 8)

/-- The byte address of element `i` of the buffer at `base` (R43, R121). -/
def elemAddr (base i : Nat) : Nat := base + 2 * i

/-! ### The platform's map (R47, R48) -/

/-- The kind of an access: the second argument of `MemValid`. -/
inductive Access where
  | read
  | write
  deriving DecidableEq, Repr

/-- The region holds the byte at `a`. -/
def Region.covers (r : Region) (a : Nat) : Bool := decide (r.base ≤ a) && decide (a < r.base + r.size)

/-- The region allows accesses of this kind. -/
def Region.allows (r : Region) : Access → Bool
  | .read => r.readable
  | .write => r.writable

/-- `MemValid(a, kind)` (R48): some region of the map holds `a` and allows the access. -/
def memValid (map : List Region) (kind : Access) (a : Nat) : Bool :=
  map.any fun r => r.covers a && r.allows kind

/-- The byte at `a` lies in a region with side effects (R47). -/
def isDevice (map : List Region) (a : Nat) : Bool := map.any fun r => r.covers a && r.device

/-- Every byte address of `[base, base + len)` satisfies `p`. -/
def rangeAll (p : Nat → Bool) (base len : Nat) : Bool := (List.range len).all fun k => p (base + k)

/-- Some byte address of `[base, base + len)` satisfies `p`. -/
def rangeAny (p : Nat → Bool) (base len : Nat) : Bool := (List.range len).any fun k => p (base + k)

/-- The half-open ranges of length `len` at `a` and `b` intersect (R151). -/
def rangesMeet (a b len : Nat) : Bool := decide (a < b + len) && decide (b < a + len)

/-! ### Fault entry, reset, completion -/

/-- Fault entry, `raise Fault(cause)`: FAULT and CAUSE are written and nothing else changes; `pc` stays at the header
(R152). There is no handler and no return (R154). -/
def raise (c : Cause) (s : State) : Host.Outcome State Fault Refusal := .next { s with cause := some c }

/-- The reset input (R170, R171): every piece of the block's state takes the value of R27, words delivered before it
are forgotten, memory and the platform's map stay, and the build stays as it was constructed. It is the only way to
clear FAULT (R154); it is a move of the host's between commands (R160, R172;
notes/assumptions/18.md). -/
def resetInput (s : State) : State :=
  { filter := FilterState.zero
    config := none
    mode := .uninitialized
    cause := none
    pc := 0
    results := []
    refdc := s.refdc.map fun _ => RefBlocker.reset
    stream := []
    mem := s.mem
    regions := s.regions }

/-- A command of `words` words completes: `pc <- pc + L` (R20). -/
def complete (words : Nat) (s : State) : Host.Outcome State Fault Refusal := .next { s with pc := s.pc + words }

/-- `Result.push(v)` (R31). -/
def pushResult (v : Wide) (s : State) : State := { s with results := s.results ++ [v] }

/-- The active configuration: the one the datapath and `RDREG` may read. There is none in mode Uninitialized, and
none while the registers are unwritten (R28, R149; notes/assumptions/15.md). -/
def activeConfig (s : State) : Option FilterConfiguration :=
  match s.mode with
  | .uninitialized => none
  | .configured => s.config
  | .running => s.config

/-! ### The command port and the host's other moves (R60, R160) -/

/-- The words the block has not consumed: from `pc` on (R60). A `pc` past the last word delivered reads none. -/
def fetch (s : State) : List Word := s.stream.drop s.pc

/-- The host delivers command words (R60, R163). -/
def deliverWords (ws : List Word) (s : State) : State := { s with stream := s.stream ++ ws }

/-- The host, or a collaborator through it, writes one byte between commands (R53, R160). -/
def hostStore (a : Nat) (b : Byte) (s : State) : Host.Outcome State Fault Refusal :=
  andThen (writeByte s.mem a b) fun m => .next { s with mem := m }

/-- The stream with `ws` at word index `pc` in place of the words there; words missing below `pc` are zero. -/
def placeWords (pc : Nat) (ws stream : List Word) : List Word :=
  stream.take pc ++ List.replicate (pc - stream.length) 0 ++ ws ++ stream.drop (pc + ws.length)

end Sys2Proof.Machine
end

