-- ==== Sys2Proof/Machine/Operands.lean ====
section
/-! DEFINITION. Operand assembly (spec/30_encoding.md rule R67): how each command reads its operand words as
integers or addresses. -/

namespace Sys2Proof.Machine

/-- `sext_32`: the selector of `INIT`, the count of `PROC`, the operand of `RDC.SET` (R67). -/
def sext32 (w : Word) : Int := w.toInt

/-- `zext_32`: the buffer bases of `PROC` are byte addresses (R67). -/
def zext32 (w : Word) : Nat := w.toNat

/-- The number of samples `PROC` processes: `max(count, 0)` (R116, R120). -/
def sampleCount (count : Word) : Nat := (sext32 count).toNat

/-- A 32-bit register sign-extended to a result-stream entry (R26). -/
def sextWide (w : Word) : Wide := w.signExtend 64

/-- A 32-bit register zero-extended to a result-stream entry (R26). -/
def zextWide (w : Word) : Wide := w.setWidth 64

end Sys2Proof.Machine
end

