-- ==== Sys2Proof/Machine/Coefficients.lean ====
section
/-! DEFINITION. The coefficient ROM and `INIT` (spec/40_coefficient_table.md). -/

namespace Sys2Proof.Machine

/-- `ROM[3]`: the quadruple of R82, from the source's real values truncated toward zero (R81). -/
def rom3 : Quad :=
  { a2 := BitVec.ofInt 32 7739, b0 := BitVec.ofInt 32 8125, b1 := BitVec.ofInt 32 (-14718), b2 := BitVec.ofInt 32 7805 }

/-- The coefficient ROM: `ROM[3]` given, the other four OPEN (R81, R82, R84). -/
def rom : Profile → Quad
  | .s3 => rom3
  | .s6 => Config.rom6
  | .s9 => Config.rom9
  | .s12 => Config.rom12
  | .s32 => Config.rom32

/-- The selector of a profile, as SEL records it (R16). -/
def Profile.selector : Profile → Int
  | .s3 => 3
  | .s6 => 6
  | .s9 => 9
  | .s12 => 12
  | .s32 => 32

/-- The profile a selector resolves to: itself if supported, else the -3 dB profile (R80, R83). -/
def resolve (sel : Int) : Profile :=
  if sel = 6 then .s6
  else if sel = 9 then .s9
  else if sel = 12 then .s12
  else if sel = 32 then .s32
  else .s3

/-- The five configuration registers of a profile, written together (R14, R80). -/
def configOf (p : Profile) : FilterConfiguration :=
  let q := rom p
  { sel := BitVec.ofInt 32 (Profile.selector p), ca2 := q.a2, cb0 := q.b0, cb1 := q.b1, cb2 := q.b2 }

/-- `INIT sel` (R80): the whole configuration, MODE Configured from any mode, `pc + 2`. It never faults. -/
def execInit (sel : Word) (s : State) : Host.Outcome State Fault Refusal :=
  complete 2 { s with config := some (configOf (resolve (sext32 sel))), mode := .configured }

end Sys2Proof.Machine
end

