-- ==== Sys2Proof/Machine/Biquad.lean ====
section
/-! DEFINITION. The biquad stage (spec/42_biquad.md). -/

namespace Sys2Proof.Machine

/-- `X1 - Y1`, formed first and multiplied once by CB1 (R101). -/
def bqDiff (f : FilterState) : Int := f.x1.toInt - f.y1.toInt

/-- The sum `s` of R100: exact products, exact sum, in the source's algebraic form (R101). -/
def bqSum (c : FilterConfiguration) (f : FilterState) (x : Wide) : Int :=
  c.cb0.toInt * x.toInt + c.cb1.toInt * bqDiff f + c.cb2.toInt * f.x2.toInt - c.ca2.toInt * f.y2.toInt

/-- `y` of R100: one shift of the whole sum, by COEFFBITS = 13, a floor (R102). -/
def bqY (c : FilterConfiguration) (f : FilterState) (x : Wide) : Int := asr (bqSum c f x) 13

/-- Every intermediate fits 64 bits: the difference, the four products, the sum and `y` (R105, U3;
notes/assumptions/11.md). -/
def bqFits (c : FilterConfiguration) (f : FilterState) (x : Wide) : Bool :=
  fitsWide (bqDiff f) && fitsWide (c.cb0.toInt * x.toInt) && fitsWide (c.cb1.toInt * bqDiff f) &&
    fitsWide (c.cb2.toInt * f.x2.toInt) && fitsWide (c.ca2.toInt * f.y2.toInt) && fitsWide (bqSum c f x) &&
    fitsWide (bqY c f x)

/-- The delay line after a step: all four registers from the values before it; ACC is not the biquad's (R100). The
value fed back is not clamped (R103). -/
def bqShift (c : FilterConfiguration) (f : FilterState) (x : Wide) : FilterState :=
  { acc := f.acc, x1 := x, x2 := f.x1, y1 := wide (bqY c f x), y2 := f.y1 }

/-- `BqStep(x)` (R100): the new FilterState and `y`. A value that does not fit 64 bits is refused (R105). -/
def bqStep (c : FilterConfiguration) (f : FilterState) (x : Wide) : Host.Outcome (FilterState × Int) Fault Refusal :=
  if bqFits c f x then .next (bqShift c f x, bqY c f x) else .refused .wideOverflow

end Sys2Proof.Machine
end

