-- ==== Sys2Proof/Machine/DcBlocker.lean ====
section
/-! DEFINITION. The DC-blocker stage (spec/41_dc_blocker.md). -/

namespace Sys2Proof.Machine

/-- The mid-scale value of a sample (R5). -/
def bias : Int := 2048

/-- The largest in-contract sample (R42, R94). -/
def maxSample : Nat := 4095

/-- `wide` of R90: the centred sample widened by `FRACBITS - 12 = 16` bits. -/
def wideSample (raw : Nat) : Int := shl ((raw : Int) - bias) 16

/-- `y` of R90: the widened sample less the accumulator as it was before the step. -/
def dcbY (raw : Nat) (acc : Wide) : Int := wideSample raw - acc.toInt

/-- The new ACC of R90, with leak shift `n`. -/
def dcbAcc (raw n : Nat) (acc : Wide) : Int := acc.toInt + asr (dcbY raw acc) n

/-- The stage's output: `y` narrowed by `FRACBITS - 16 = 12` bits, not clamped (R90, R92). -/
def dcbOut (raw : Nat) (acc : Wide) : Int := asr (dcbY raw acc) 12

/-- `DcbStep(raw, n)` from accumulator `acc`: the new ACC and the output (R90). A sample above 4095 is refused (R94;
notes/assumptions/10.md), and so is a value that does not fit 64 bits (R8, U3; notes/assumptions/11.md). -/
def dcbStep (raw n : Nat) (acc : Wide) : Host.Outcome (Wide × Wide) Fault Refusal :=
  if maxSample < raw then .refused .inputOutOfRange
  else if fitsWide (dcbY raw acc) && fitsWide (dcbAcc raw n acc) then
    .next (wide (dcbAcc raw n acc), wide (dcbOut raw acc))
  else .refused .wideOverflow

end Sys2Proof.Machine
end

