-- ==== Sys2Proof/Machine/Pipeline.lean ====
section
/-! DEFINITION. The saturating pipeline and `PROC` (spec/43_pipeline.md). -/

namespace Sys2Proof.Machine

/-- `LEAK_SHIFT`, the leak shift the pipeline always passes (R6, R91). -/
def leakShift : Nat := 4

/-- `Sat16(v) = clamp(v, -32767, 32767)` (R110). -/
def sat16 (v : Int) : Int := clamp v (-32767) 32767

/-- The 16-bit two's-complement pattern stored for an output value (R113). -/
def outElement (v : Int) : Half := BitVec.ofInt 16 v

/-- `SampleStep(raw)` (R112): the DC blocker, then the biquad, then the clamp on the returned value only. -/
def sampleStep (c : FilterConfiguration) (f : FilterState) (raw : Nat) :
    Host.Outcome (FilterState × Half) Fault Refusal :=
  andThen (dcbStep raw leakShift f.acc) fun d =>
  andThen (bqStep c { f with acc := d.1 } d.2) fun b =>
  .next (b.1, outElement (sat16 b.2))

/-- The loop of `PROC` (R115): `n` more samples from index `i`; each element is read, stepped and written before the
next is read (R51). -/
def procLoop (c : FilterConfiguration) (out inp : Nat) :
    Nat → Nat → FilterState → Mem → Host.Outcome (FilterState × Mem) Fault Refusal
  | 0, _, f, m => .next (f, m)
  | n + 1, i, f, m =>
    andThen (memRead16 m (elemAddr inp i)) fun raw =>
    andThen (sampleStep c f raw.toNat) fun r =>
    andThen (memWrite16 m (elemAddr out i) r.2) fun m1 =>
    procLoop c out inp n (i + 1) r.1 m1

/-- The buffer checks of `PROC` for `n` samples, in the order of R119 after the mode check; none of them is made when
`n` is 0 (R116). -/
def bufferFault (map : List Region) (out inp n : Nat) : Option Cause :=
  if n = 0 then none
  else if out % 2 ≠ 0 ∨ inp % 2 ≠ 0 then some .misalignedBuffer
  else if addressLimit < out + 2 * n ∨ addressLimit < inp + 2 * n then some .addressRange
  else if rangesMeet out inp (2 * n) then some .bufferOverlap
  else if rangeAll (memValid map .read) inp (2 * n) && rangeAll (memValid map .write) out (2 * n) then none
  else some .busError

/-- A byte of either buffer lies in a region with side effects (R47, U6; notes/assumptions/12.md). -/
def touchesDevice (map : List Region) (out inp n : Nat) : Bool :=
  rangeAny (isDevice map) inp (2 * n) || rangeAny (isDevice map) out (2 * n)

/-- `PROC` once the mode check has passed, for `n` samples: the buffer checks, the loop, MODE Running, `pc + 4`
(R115, R116). -/
def procBuffers (c : FilterConfiguration) (out inp n : Nat) (s : State) : Host.Outcome State Fault Refusal :=
  match bufferFault s.regions out inp n with
  | some cause => raise cause s
  | none =>
    if touchesDevice s.regions out inp n then .refused .deviceRegion
    else
      andThen (procLoop c out inp n 0 s.filter s.mem) fun r =>
      complete 4 { s with filter := r.1, mem := r.2, mode := .running }

/-- `PROC out, in, count` (R115, R119): cause 3 first, even when `count` is zero or less (R149). -/
def execProc (out inp count : Word) (s : State) : Host.Outcome State Fault Refusal :=
  match activeConfig s with
  | none => raise .notConfigured s
  | some c => procBuffers c (zext32 out) (zext32 inp) (sampleCount count) s

end Sys2Proof.Machine
end

