-- ==== Sys2Proof/Machine/RefBlocker.lean ====
section
/-! DEFINITION. The optional reference DC blocker, `RDC.SET` and `RDC.STEP` (spec/44_reference_blocker.md). Where the
build has none, both commands are illegal (R71, R125). -/

namespace Sys2Proof.Machine

/-- `RDC.SET coeff` (R126): RCOEF is the operand clamped to `[3, 8000]`, `pc + 2`; RACC and ROUT stay. -/
def execRdcSet (coeff : Word) (s : State) : Host.Outcome State Fault Refusal :=
  match s.refdc with
  | none => raise .illegalCommand s
  | some b => complete 2 { s with refdc := some { b with rcoef := some (wide (clamp (sext32 coeff) 3 8000)) } }

/-- The product `ROUT * RCOEF`, ROUT being the output of the previous step (R127). -/
def rdcProduct (rcoef rout : Wide) : Int := rout.toInt * rcoef.toInt

/-- The new RACC (R127). -/
def rdcAcc (rcoef racc rout : Wide) : Int := racc.toInt + rdcProduct rcoef rout

/-- The new ROUT, from the RACC just updated (R127); `RefPre` is OPEN (R128). -/
def rdcOut (input : Word) (acc : Int) : Int := (Config.refPre input).toInt - asr acc 14

/-- `RDC.STEP input` (R127): accumulate, then output, in the source's order (R129); the output is pushed; `pc + 2`.
Cause 3 while RCOEF is unwritten; a value that does not fit 64 bits is refused (R129;
notes/assumptions/11.md). -/
def execRdcStep (input : Word) (s : State) : Host.Outcome State Fault Refusal :=
  match s.refdc with
  | none => raise .illegalCommand s
  | some b =>
    match b.rcoef with
    | none => raise .notConfigured s
    | some coef =>
      let acc := rdcAcc coef b.racc b.rout
      let out := rdcOut input acc
      if fitsWide (rdcProduct coef b.rout) && fitsWide acc && fitsWide out then
        complete 2 (pushResult (wide out) { s with refdc := some { b with racc := wide acc, rout := wide out } })
      else .refused .wideOverflow

end Sys2Proof.Machine
end

