-- ==== Sys2Proof/Machine/Flags.lean ====
section
/-! DEFINITION. The STATUS register (spec/10_state.md rules R17, R18, R32; spec/60_exceptions.md rule R146). There
are no condition codes, and a clamp sets nothing (R22). -/

namespace Sys2Proof.Machine

/-- MODE, bits 1:0 (R17). -/
def Mode.code : Mode → BitVec 2
  | .uninitialized => 0
  | .configured => 1
  | .running => 2

/-- The cause codes of R146. -/
def Cause.code : Cause → BitVec 4
  | .illegalCommand => 1
  | .misalignedBuffer => 2
  | .notConfigured => 3
  | .bufferOverlap => 4
  | .busError => 5
  | .addressRange => 6

/-- FAULT, bit 2 (R17). -/
def faultField : Option Cause → BitVec 1
  | none => 0
  | some _ => 1

/-- CAUSE, bits 7:4; 0 while FAULT is 0 (R17). -/
def causeField : Option Cause → BitVec 4
  | none => 0
  | some c => c.code

/-- STATUS as a 32-bit word: MODE in 1:0, FAULT in 2, CAUSE in 7:4, every other bit zero (R17). It is also what the
status port shows (R32). -/
def State.status (s : State) : Word :=
  (0#24 ++ causeField s.cause ++ 0#1 ++ faultField s.cause ++ s.mode.code : BitVec 32)

end Sys2Proof.Machine
end

