-- ==== Sys2Proof/Machine/StateOps.lean ====
section
/-! DEFINITION. `RSTATE` and `RDREG` (spec/45_state_ops.md). -/

namespace Sys2Proof.Machine

/-- `RSTATE` (R135): FilterState to zero, `pc + 1`; nothing else. -/
def execRstate (s : State) : Host.Outcome State Fault Refusal := complete 1 { s with filter := FilterState.zero }

/-- A configuration register, sign-extended; cause 3 while there is no active configuration (R28, R149). -/
def readConfig (s : State) (field : FilterConfiguration → Word) : Except Cause Wide :=
  match activeConfig s with
  | none => .error .notConfigured
  | some c => .ok (sextWide (field c))

/-- RACC or ROUT; cause 1 where the reference blocker does not exist (R69, R137). -/
def readRefdc (s : State) (field : RefBlocker → Wide) : Except Cause Wide :=
  match s.refdc with
  | none => .error .illegalCommand
  | some b => .ok (field b)

/-- RCOEF; cause 1 where it does not exist, cause 3 while it is unwritten (R137). -/
def readRcoef (s : State) : Except Cause Wide :=
  match s.refdc with
  | none => .error .illegalCommand
  | some b =>
    match b.rcoef with
    | none => .error .notConfigured
    | some v => .ok v

/-- The value `RDREG` pushes for a register, or the cause it raises (R26, R137). -/
def readReg (s : State) : RegName → Except Cause Wide
  | .acc => .ok s.filter.acc
  | .x1 => .ok s.filter.x1
  | .x2 => .ok s.filter.x2
  | .y1 => .ok s.filter.y1
  | .y2 => .ok s.filter.y2
  | .ca2 => readConfig s FilterConfiguration.ca2
  | .cb0 => readConfig s FilterConfiguration.cb0
  | .cb1 => readConfig s FilterConfiguration.cb1
  | .cb2 => readConfig s FilterConfiguration.cb2
  | .sel => readConfig s FilterConfiguration.sel
  | .status => .ok (zextWide s.status)
  | .racc => readRefdc s RefBlocker.racc
  | .rcoef => readRcoef s
  | .rout => readRefdc s RefBlocker.rout

/-- `RDREG reg` (R137): the register onto the result stream, `pc + 1`. -/
def execRdreg (r : RegName) (s : State) : Host.Outcome State Fault Refusal :=
  match readReg s r with
  | .error c => raise c s
  | .ok v => complete 1 (pushResult v s)

end Sys2Proof.Machine
end

