-- ==== Sys2Proof/Machine/Dispatch.lean ====
section
/-! DEFINITION. One arm per command of spec/opcode_table.json, each one direct call of its meaning. -/

namespace Sys2Proof.Machine

/-- Executes one command of a block that accepts commands. -/
def exec (i : Instr) (s : State) : Host.Outcome State Fault Refusal :=
  match i with
  | .init sel => Sys2Proof.Machine.execInit sel s
  | .proc out inp count => Sys2Proof.Machine.execProc out inp count s
  | .rstate => Sys2Proof.Machine.execRstate s
  | .rdreg r => Sys2Proof.Machine.execRdreg r s
  | .rdcSet coeff => Sys2Proof.Machine.execRdcSet coeff s
  | .rdcStep input => Sys2Proof.Machine.execRdcStep input s

end Sys2Proof.Machine
end

