-- ==== Sys2Proof/Machine/Step.lean ====
section
/-! DEFINITION. One step of the block: a halted block does nothing (R152), an incomplete command is waited for (R163),
an illegal header faults (R147), and a whole command is executed (R73). -/

namespace Sys2Proof.Machine

/-- One step. A block that is halted or waits takes a step that changes nothing (notes/assumptions/8.md). -/
def step (s : State) : Host.Outcome State Fault Refusal :=
  match s.cause with
  | some _ => .next s
  | none =>
    match decode s.refdc.isSome (fetch s) with
    | .wait => .next s
    | .illegal _ => raise .illegalCommand s
    | .command i => exec i s

/-- `s` with the instruction whose bits are `w` on the command port at `pc`, where `step` takes its next command.
It stands for the host's delivery of a program (notes/assumptions/7.md). -/
def State.withFetchWord (s : State) (nbits w : Nat) : State :=
  { s with stream := placeWords s.pc (tableWords nbits w) s.stream }

end Sys2Proof.Machine
end

