-- ==== Sys2Proof/Machine/Assembler.lean ====
section
/-! DEFINITION. The assembly syntax of spec/30_encoding.md rule R74, over lists of characters: one command a line,
operands separated by commas, `;` starting a comment, numbers in decimal (optionally signed) or `0x` hexadecimal,
mnemonics and register names in either case. There are no pseudo-instructions (R75). What R74 leaves open is in
notes/assumptions/17.md. -/

namespace Sys2Proof.Machine

/-- A character in lower case; only the letters A to Z change. -/
def lowerChar (c : Char) : Char := if 65 ≤ c.toNat ∧ c.toNat ≤ 90 then Char.ofNat (c.toNat + 32) else c

/-- A blank between the parts of a line: space or tab, DESIGN CHOICE, notes/assumptions/17.md. -/
def isBlank (c : Char) : Bool := c.toNat == 32 || c.toNat == 9

/-- The line up to a comment, in lower case. R74 makes mnemonics and register names case-insensitive; that the whole line
is lowered, so that a `0X` before a hexadecimal number and its digits A to F are taken in either case, is the model's
own: DESIGN CHOICE, notes/assumptions/17.md. -/
def stripComment (line : List Char) : List Char := (line.takeWhile fun c => c.toNat != 59).map lowerChar

/-- Without the blanks around it. -/
def trimBlanks (l : List Char) : List Char := ((l.dropWhile isBlank).reverse.dropWhile isBlank).reverse

/-- The pieces between commas. -/
def splitCommas : List Char → List (List Char)
  | [] => [[]]
  | c :: rest =>
    match splitCommas rest with
    | [] => [[c]]
    | piece :: more => if c.toNat == 44 then [] :: piece :: more else (c :: piece) :: more

/-- The value of a digit in base 10 or 16, lower case. -/
def digitValue (base : Nat) (c : Char) : Option Nat :=
  let n := c.toNat
  let v := if 48 ≤ n ∧ n ≤ 57 then n - 48 else if 97 ≤ n ∧ n ≤ 102 then n - 87 else base
  if v < base then some v else none

/-- A sequence of digits, the first the most significant; none if it is empty or holds another character. -/
def digitsValue (base : Nat) (l : List Char) : Option Nat :=
  match l with
  | [] => none
  | _ :: _ => l.foldl (fun acc c => acc.bind fun a => (digitValue base c).map fun d => a * base + d) (some 0)

/-- A number: decimal, optionally signed, or `0x` hexadecimal (R74), in a line already in lower case. That a plus sign
counts as a sign and that hexadecimal takes none: DESIGN CHOICE, notes/assumptions/17.md. -/
def parseNumber (l : List Char) : Option Int :=
  match l with
  | '0' :: 'x' :: ds => (digitsValue 16 ds).map Int.ofNat
  | '-' :: ds => (digitsValue 10 ds).map fun n => -(n : Int)
  | '+' :: ds => (digitsValue 10 ds).map Int.ofNat
  | ds => (digitsValue 10 ds).map Int.ofNat

/-- An operand word: a number that 32 bits can hold, signed or unsigned (R67); a number beyond that is no assembly,
DESIGN CHOICE, notes/assumptions/17.md. -/
def parseWord (l : List Char) : Option Word :=
  (parseNumber (trimBlanks l)).bind fun v =>
    if -(2 : Int) ^ 31 ≤ v ∧ v < (2 : Int) ^ 32 then some (BitVec.ofInt 32 v) else none

/-- A register by its name (R26, R74). -/
def registerByName (l : List Char) : Option RegName :=
  match l with
  | ['a', 'c', 'c'] => some .acc
  | ['x', '1'] => some .x1
  | ['x', '2'] => some .x2
  | ['y', '1'] => some .y1
  | ['y', '2'] => some .y2
  | ['c', 'a', '2'] => some .ca2
  | ['c', 'b', '0'] => some .cb0
  | ['c', 'b', '1'] => some .cb1
  | ['c', 'b', '2'] => some .cb2
  | ['s', 'e', 'l'] => some .sel
  | ['s', 't', 'a', 't', 'u', 's'] => some .status
  | ['r', 'a', 'c', 'c'] => some .racc
  | ['r', 'c', 'o', 'e', 'f'] => some .rcoef
  | ['r', 'o', 'u', 't'] => some .rout
  | _ => none

/-- A register by its name or its number (R74). -/
def parseRegister (l : List Char) : Option RegName :=
  match registerByName (trimBlanks l) with
  | some r => some r
  | none =>
    (parseNumber (trimBlanks l)).bind fun v =>
      if 0 ≤ v ∧ v < 256 then RegName.ofNumber (BitVec.ofInt 8 v) else none

/-- A command from its mnemonic and its operands, both in lower case (R74). -/
def parseCommand (mnemonic : List Char) (operands : List (List Char)) : Option Instr :=
  match mnemonic, operands with
  | ['i', 'n', 'i', 't'], [a] => (parseWord a).map .init
  | ['p', 'r', 'o', 'c'], [a, b, c] =>
    (parseWord a).bind fun out => (parseWord b).bind fun inp => (parseWord c).map fun count => .proc out inp count
  | ['r', 's', 't', 'a', 't', 'e'], [a] => if trimBlanks a = [] then some .rstate else none
  | ['r', 'd', 'r', 'e', 'g'], [a] => (parseRegister a).map .rdreg
  | ['r', 'd', 'c', '.', 's', 'e', 't'], [a] => (parseWord a).map .rdcSet
  | ['r', 'd', 'c', '.', 's', 't', 'e', 'p'], [a] => (parseWord a).map .rdcStep
  | _, _ => none

/-- One line of assembly: a command that exists on the build gives its header word and its operand words in the order
written; a blank line or a comment gives no words; anything else is no assembly (R74). -/
def assembleLine (refdc : Bool) (line : List Char) : Option (List Word) :=
  match trimBlanks (stripComment line) with
  | [] => some []
  | c :: rest =>
    let text := c :: rest
    let mnemonic := text.takeWhile fun x => !isBlank x
    (parseCommand mnemonic (splitCommas (text.dropWhile fun x => !isBlank x))).bind fun i =>
      if WellFormed refdc i then some (encode i) else none

/-- A program: the words of its lines, one after another (R60, R74). -/
def assembleProgram (refdc : Bool) : List (List Char) → Option (List Word)
  | [] => some []
  | line :: rest =>
    (assembleLine refdc line).bind fun ws => (assembleProgram refdc rest).map fun more => ws ++ more

end Sys2Proof.Machine
end

