-- ==== Sys2Proof/Safety.lean ====
section
/-! DEFINITION. The terms claims are stated in: when a run has ended, waits or is halted (spec/60_exceptions.md rules
R152, R163, R164), the invariant of every step, and `PROC` read as a function from samples to outputs. -/

namespace Sys2Proof.Safety

open Sys2Proof.Machine

/-- The block has faulted and is halted (R152). -/
def Halted (s : State) : Prop := ∃ c, s.cause = some c

/-- A run of a finite command stream is over: every word consumed, no fault (R164). -/
def RunEnded (s : State) : Prop := s.pc = s.stream.length ∧ s.cause = none

/-- The block waits for words of a command that has begun (R163). -/
def WaitsInside (s : State) : Prop :=
  s.cause = none ∧ decode s.refdc.isSome (fetch s) = .wait ∧ fetch s ≠ []

/-! ### Ranges of the registers -/

/-- `L = -2^27` of R95. -/
def accMin : Int := -134217728

/-- `U = 2^27 - 2^16` of R95. -/
def accMax : Int := 134152192

/-- The largest magnitude of the DC blocker's output (R96). -/
def dcbOutMax : Int := 65520

/-- ACC lies in `[L, U]` (R95). -/
def AccInRange (acc : Wide) : Prop := accMin ≤ acc.toInt ∧ acc.toInt ≤ accMax

/-- A biquad input register holds a value the DC blocker can give (R96). -/
def InputInRange (x : Wide) : Prop := -dcbOutMax ≤ x.toInt ∧ x.toInt ≤ dcbOutMax

/-- RCOEF is unwritten or lies in `[3, 8000]` (R23). -/
def RcoefInRange (b : RefBlocker) : Prop := ∀ v, b.rcoef = some v → 3 ≤ v.toInt ∧ v.toInt ≤ 8000

/-- What every step keeps. -/
structure Inv (s : State) : Prop where
  /-- Memory is in canonical form. -/
  memory : Mem.wf s.mem = true
  /-- The configuration is unwritten exactly in mode Uninitialized (R18, R28). -/
  lifecycle : s.mode = .uninitialized ↔ s.config = none
  /-- The configuration registers hold exactly one ROM profile and its own selector (R14 to R16). -/
  profile : ∀ c, s.config = some c → ∃ p, c = configOf p
  /-- ACC stays in its range (R95). -/
  acc : AccInRange s.filter.acc
  /-- X1 stays in its range (R96). -/
  x1 : InputInRange s.filter.x1
  /-- X2 stays in its range (R96). -/
  x2 : InputInRange s.filter.x2
  /-- RCOEF stays in its range where it exists (R23). -/
  rcoef : ∀ b, s.refdc = some b → RcoefInRange b
  /-- `pc` never passes the words delivered (R20, R163). -/
  pc : s.pc ≤ s.stream.length

/-- A quadratic form of the delay line that the biquad with `ROM[3]` contracts: it is proportional to
`Y1^2 + (b1/8192) Y1 Y2 + (a2/8192) Y2^2`, the denominator of R106's feedback part. It is the model's own means of
stating a bound (notes/assumptions/16.md); the spec gives no such form. -/
def feedbackForm (f : FilterState) : Int :=
  8192 * (f.y1.toInt * f.y1.toInt) - 14718 * (f.y1.toInt * f.y2.toInt) + 7739 * (f.y2.toInt * f.y2.toInt)

/-- The configuration registers under profile 3, as R82 gives their contents. -/
def profile3 : FilterConfiguration :=
  { sel := 3, ca2 := 0x00001E3B, cb0 := 0x00001FBD, cb1 := 0xFFFFC682, cb2 := 0x00001E7D }

/-- A FilterState from which profile 3 never overflows: the ranges of R95 and R96, and a bounded delay line. -/
structure Profile3Bounded (f : FilterState) : Prop where
  acc : AccInRange f.acc
  x1 : InputInRange f.x1
  x2 : InputInRange f.x2
  feedback : feedbackForm f ≤ 2 ^ 61

/-! ### PROC as a function of samples -/

/-- Element `i` of the buffer at `base`: two bytes, little-endian (R43, R44). -/
def elemAt (m : Mem) (base i : Nat) : Half := (m.byteAt (base + 2 * i + 1) ++ m.byteAt (base + 2 * i) : BitVec 16)

/-- The `n` elements of the buffer at `base`, in index order (R43). -/
def elems (m : Mem) (base n : Nat) : List Half := (List.range n).map (elemAt m base)

/-- The filter over a list of samples: one sample step each, in order (R112, R115). -/
def filterRun (c : FilterConfiguration) :
    FilterState → List Half → Host.Outcome (FilterState × List Half) Fault Refusal
  | f, [] => .next (f, [])
  | f, raw :: rest =>
    andThen (sampleStep c f raw.toNat) fun r =>
    andThen (filterRun c r.1 rest) fun q =>
    .next (q.1, r.2 :: q.2)

/-- The buffers of a `PROC` of `n` samples pass every check of R119 that concerns them. -/
structure ChecksPass (map : List Region) (out inp n : Nat) : Prop where
  outEven : out % 2 = 0
  inpEven : inp % 2 = 0
  outInSpace : out + 2 * n ≤ 2 ^ 32
  inpInSpace : inp + 2 * n ≤ 2 ^ 32
  disjoint : out + 2 * n ≤ inp ∨ inp + 2 * n ≤ out
  readable : ∀ a, inp ≤ a → a < inp + 2 * n → memValid map .read a = true
  writable : ∀ a, out ≤ a → a < out + 2 * n → memValid map .write a = true

/-- They pass the checks and lie in ordinary memory (R47). -/
structure BuffersOk (map : List Region) (out inp n : Nat) : Prop extends ChecksPass map out inp n where
  inpOrdinary : ∀ a, inp ≤ a → a < inp + 2 * n → isDevice map a = false
  outOrdinary : ∀ a, out ≤ a → a < out + 2 * n → isDevice map a = false

/-- The block is configured with `c`: `PROC` and `RDREG` may read the configuration registers (R149). -/
def ConfiguredWith (s : State) (c : FilterConfiguration) : Prop := s.mode ≠ .uninitialized ∧ s.config = some c

end Sys2Proof.Safety
end

