-- ==== Sys2Proof/Certificates/Slice0/Obligations.lean ====
section
/-! DEFINITION. The statements for the provers. Each docstring names the rule of spec/ it formalises. "Derived" says
that the rule is the spec's own derivation or that the statement rests on a choice of the model, which it names. -/

open Sys2Proof Sys2Proof.Machine Sys2Proof.Safety

/-! ### Encoding (spec/30_encoding.md) -/

/-- R61 to R68, R73: decoding the words of a command that exists on the build gives the command, with every operand,
whatever words follow. -/
def Obligations.EncodeThenDecodeIsIdentity : Prop :=
  ∀ (refdc : Bool) (i : Instr) (rest : List Word), WellFormed refdc i = true →
    decode refdc (encode i ++ rest) = .command i

/-- R73, the other direction: what decodes to a command exists on the build and begins with exactly its words. -/
def Obligations.DecodedCommandIsItsEncoding : Prop :=
  ∀ (refdc : Bool) (ws : List Word) (i : Instr), decode refdc ws = .command i →
    WellFormed refdc i = true ∧ ∃ rest, ws = encode i ++ rest

/-- R68, R69, R71: the legal header words are exactly those of the opcode map, as numbers. -/
def Obligations.HeaderIsLegalExactlyAsMapped : Prop :=
  ∀ (refdc : Bool) (h : Word),
    (∃ op, decodeHeader refdc h = .legal op) ↔
      h.toNat = 0x01 ∨ h.toNat = 0x02 ∨ h.toNat = 0x03 ∨ (∃ r, r ≤ 10 ∧ h.toNat = 0x04 + 256 * r) ∨
      (refdc = true ∧
        (h.toNat = 0x10 ∨ h.toNat = 0x11 ∨ ∃ r, 11 ≤ r ∧ r ≤ 13 ∧ h.toNat = 0x04 + 256 * r))

/-- The spec's own example words (spec/30_encoding.md, after R75) decode to what they stand for. -/
def Obligations.ExampleWordsDecode : Prop :=
  decode false [0x00000001, 0xFFFFFFFB] = .command (.init (BitVec.ofInt 32 (-5))) ∧
  decode false [0x00000002, 0x20002000, 0x20001000, 0x00000004] = .command (.proc 0x20002000 0x20001000 4) ∧
  decode false [0x00000003] = .command .rstate ∧
  decode false [0x00000704] = .command (.rdreg .cb1) ∧
  decode false [0x00000A04] = .command (.rdreg .status) ∧
  decode true [0x00000010, 0x00002328] = .command (.rdcSet 9000) ∧
  decode true [0x00000011, 0x00000064] = .command (.rdcStep 100) ∧
  decode false [0x00000010, 0x00002328] = .illegal .reservedOpcode

/-- R60: "never looks ahead": words delivered after a whole command, or after an illegal header, change nothing of
what it decodes to. -/
def Obligations.DecoderNeverLooksAhead : Prop :=
  ∀ (refdc : Bool) (ws more : List Word), decode refdc ws ≠ .wait → decode refdc (ws ++ more) = decode refdc ws

/-! ### One step (spec/30_encoding.md R73, spec/60_exceptions.md) -/

/-- R73: when the words at `pc` are those of a command that exists on the build, a step of a block that has not
faulted is the command's own meaning. Nothing stands around it: the command moves `pc` itself (R20). -/
def Obligations.StepRunsTheDecodedCommand : Prop :=
  ∀ (s : State) (i : Instr), s.cause = none → decode s.refdc.isSome (s.stream.drop s.pc) = .command i →
    step s = exec i s

/-- R163: while the header is legal and words of the command are missing, the block waits and changes nothing, which is
no end of a run; the missing words lift the hold, and the command is executed. So it waits before the first word
(R171). -/
def Obligations.IncompleteCommandWaits : Prop :=
  ∀ (s : State) (i : Instr) (k : Nat), s.cause = none → WellFormed s.refdc.isSome i = true → k < i.words →
    s.stream.drop s.pc = (encode i).take k →
    step s = .next s ∧
    (0 < k → ¬RunEnded s ∧ ∀ more : List Word,
      step (deliverWords ((encode i).drop k ++ more) s) = exec i (deliverWords ((encode i).drop k ++ more) s))

/-- R154, R152: a halted block executes nothing, whatever words stand on the command port or are delivered to it, so
FAULT and CAUSE stay; the reset input clears them. -/
def Obligations.HaltedBlockExecutesNothing : Prop :=
  ∀ (s : State) (c : Cause) (ws : List Word), s.cause = some c →
    step s = .next s ∧ step (deliverWords ws s) = .next (deliverWords ws s) ∧ (resetInput s).cause = none

/-- R147, R70: an illegal header faults with cause 1 as soon as it is there, with or without words after it, and
`pc` stays. -/
def Obligations.IllegalHeaderFaultsAtOnce : Prop :=
  ∀ (s : State) (h : Word) (rest : List Word), s.cause = none → s.stream.drop s.pc = h :: rest →
    (¬∃ op, decodeHeader s.refdc.isSome h = .legal op) →
    step s = .next { s with cause := some .illegalCommand }

/-- R164: a run is over when every word is consumed and FAULT is 0; a block that has faulted, or waits inside a
command, is not at the end of a run; at the end nothing more happens until the host delivers words. Derived: that a
waiting block takes steps that change nothing is the model's way to show a wait (notes/assumptions/8.md). -/
def Obligations.EndOfRunIsQuiet : Prop :=
  (∀ s : State, RunEnded s → step s = .next s) ∧
  (∀ s : State, Halted s → ¬RunEnded s) ∧ ∀ s : State, WaitsInside s → step s = .next s ∧ ¬RunEnded s

/-- R74: the lines of the example table assemble to the words it gives; a line for a command the build does not have
does not assemble. -/
def Obligations.ExampleLinesAssemble : Prop :=
  assembleLine false "INIT 3".toList = some [0x00000001, 0x00000003] ∧
  assembleLine false "init -5 ; falls back".toList = some [0x00000001, 0xFFFFFFFB] ∧
  assembleLine false "PROC 0x20002000, 0x20001000, 4".toList = some [0x00000002, 0x20002000, 0x20001000, 0x00000004] ∧
  assembleLine false "RSTATE".toList = some [0x00000003] ∧
  assembleLine false "RDREG ACC".toList = some [0x00000004] ∧
  assembleLine false "RDREG Cb1".toList = some [0x00000704] ∧
  assembleLine false "RDREG 10".toList = some [0x00000A04] ∧
  assembleLine true "RDC.SET 9000".toList = some [0x00000010, 0x00002328] ∧
  assembleLine true "RDC.STEP 100".toList = some [0x00000011, 0x00000064] ∧
  assembleLine false "RDC.SET 9000".toList = none

/-! ### INIT (spec/40_coefficient_table.md) -/

/-- R80: the words of `INIT sel` are 00000001H and `sel`; `INIT` loads SEL and the whole quadruple of the resolved
profile, sets MODE to Configured, advances `pc` by 2, and changes nothing else, from every state and for every
selector. -/
def Obligations.InitLoadsTheResolvedProfile : Prop :=
  ∀ (sel : Word) (s : State),
    encode (.init sel) = [0x00000001, sel] ∧
    exec (.init sel) s = .next { s with
      config := some (
        if sel.toInt = 6 then ⟨6, Config.rom6.a2, Config.rom6.b0, Config.rom6.b1, Config.rom6.b2⟩
        else if sel.toInt = 9 then ⟨9, Config.rom9.a2, Config.rom9.b0, Config.rom9.b1, Config.rom9.b2⟩
        else if sel.toInt = 12 then ⟨12, Config.rom12.a2, Config.rom12.b0, Config.rom12.b1, Config.rom12.b2⟩
        else if sel.toInt = 32 then ⟨32, Config.rom32.a2, Config.rom32.b0, Config.rom32.b1, Config.rom32.b2⟩
        else ⟨3, 0x00001E3B, 0x00001FBD, 0xFFFFC682, 0x00001E7D⟩)
      mode := .configured
      pc := s.pc + 2 }

/-- R83: every selector outside the supported set does exactly what `INIT 3` does: no fault, no flag, SEL reads 3. -/
def Obligations.UnsupportedSelectorIsProfile3 : Prop :=
  ∀ (sel : Word) (s : State),
    sel.toInt ≠ 3 → sel.toInt ≠ 6 → sel.toInt ≠ 9 → sel.toInt ≠ 12 → sel.toInt ≠ 32 →
    exec (.init sel) s = exec (.init 3) s ∧
    ∃ t c, exec (.init sel) s = .next t ∧ t.cause = s.cause ∧ t.config = some c ∧ c.sel = 3

/-- Derived by the spec in R82 from R81: `ROM[3]` as integers and as register contents: the source's real coefficients
times 8192, truncated toward zero, by exact arithmetic on their decimal digits. -/
def Obligations.Rom3IsTruncatedTowardZero : Prop :=
  rom3.a2.toInt = Int.tdiv (94471892 * 8192) (10 ^ 8) ∧ rom3.a2.toInt = 7739 ∧
  rom3.b0.toInt = Int.tdiv (99192746 * 8192) (10 ^ 8) ∧ rom3.b0.toInt = 8125 ∧
  rom3.b1.toInt = Int.tdiv (-179668601 * 8192) (10 ^ 8) ∧ rom3.b1.toInt = -14718 ∧
  rom3.b2.toInt = Int.tdiv (95279146 * 8192) (10 ^ 8) ∧ rom3.b2.toInt = 7805 ∧
  rom .s3 = ⟨0x00001E3B, 0x00001FBD, 0xFFFFC682, 0x00001E7D⟩

/-! ### RSTATE and RDREG (spec/45_state_ops.md) -/

/-- R135: the word of `RSTATE` is 00000003H; it clears the five data registers, advances `pc` by 1, and changes nothing
else, in every mode. -/
def Obligations.RstateClearsFilterState : Prop :=
  encode .rstate = [0x00000003] ∧
  ∀ s : State, exec .rstate s = .next { s with filter := ⟨0, 0, 0, 0, 0⟩, pc := s.pc + 1 }

/-- R175, R136: the order of `INIT` relative to `RSTATE` does not matter. -/
def Obligations.InitAndRstateCommute : Prop :=
  ∀ (sel : Word) (s : State),
    andThen (exec (.init sel) s) (exec .rstate) = andThen (exec .rstate s) (exec (.init sel)) ∧
    ∃ t, andThen (exec (.init sel) s) (exec .rstate) = .next t

/-- R137: the word of `RDREG r` is 4 + 256 * r; it pushes the register's value (sign-extended, STATUS zero-extended),
advances `pc` by 1, and changes nothing else: the data registers and STATUS in every mode, the configuration registers
once configured and else cause 3, the reference blocker's registers where they exist and else cause 1, RCOEF once
written and else cause 3; a number that names no register on any build is cause 1. A fault changes nothing but FAULT
and CAUSE. -/
def Obligations.RdregPushesTheRegisterOrFaults : Prop :=
  (∀ r : RegName, encode (.rdreg r) = [BitVec.ofNat 32 (4 + 256 * r.number.toNat)]) ∧
  ∀ s : State,
    let pushes := fun (r : RegName) (v : Wide) =>
      exec (.rdreg r) s = .next { s with results := s.results ++ [v], pc := s.pc + 1 }
    let faults := fun (r : RegName) (c : Cause) => exec (.rdreg r) s = .next { s with cause := some c }
    pushes .acc s.filter.acc ∧ pushes .x1 s.filter.x1 ∧ pushes .x2 s.filter.x2 ∧
    pushes .y1 s.filter.y1 ∧ pushes .y2 s.filter.y2 ∧ pushes .status (s.status.setWidth 64) ∧
    (∀ c, ConfiguredWith s c →
      pushes .ca2 (c.ca2.signExtend 64) ∧ pushes .cb0 (c.cb0.signExtend 64) ∧ pushes .cb1 (c.cb1.signExtend 64) ∧
      pushes .cb2 (c.cb2.signExtend 64) ∧ pushes .sel (c.sel.signExtend 64)) ∧
    (s.mode = .uninitialized →
      faults .ca2 .notConfigured ∧ faults .cb0 .notConfigured ∧ faults .cb1 .notConfigured ∧
      faults .cb2 .notConfigured ∧ faults .sel .notConfigured) ∧
    (∀ b, s.refdc = some b →
      pushes .racc b.racc ∧ pushes .rout b.rout ∧ (∀ v, b.rcoef = some v → pushes .rcoef v) ∧
      (b.rcoef = none → faults .rcoef .notConfigured)) ∧
    (s.refdc = none →
      faults .racc .illegalCommand ∧ faults .rcoef .illegalCommand ∧ faults .rout .illegalCommand) ∧
    ∀ (n : Nat) (rest : List Word), 14 ≤ n → n ≤ 255 → s.cause = none →
      s.stream.drop s.pc = BitVec.ofNat 32 (4 + 256 * n) :: rest →
      step s = .next { s with cause := some .illegalCommand }

/-- R17: STATUS is MODE in bits 1:0, FAULT in bit 2, CAUSE in bits 7:4 (0 while FAULT is 0), every other bit 0. -/
def Obligations.StatusWordLayout : Prop :=
  ∀ s : State,
    s.status.toNat =
      (match s.mode with
        | .uninitialized => 0
        | .configured => 1
        | .running => 2) +
      (match s.cause with
        | none => 0
        | some .illegalCommand => 4 + 16 * 1
        | some .misalignedBuffer => 4 + 16 * 2
        | some .notConfigured => 4 + 16 * 3
        | some .bufferOverlap => 4 + 16 * 4
        | some .busError => 4 + 16 * 5
        | some .addressRange => 4 + 16 * 6)

/-! ### The DC blocker (spec/41_dc_blocker.md) -/

/-- R90: for an in-contract sample, any leak shift, and any ACC for which `y` and the new ACC fit their registers,
`DcbStep` computes the source's five steps exactly, with floors. -/
def Obligations.DcbStepComputes : Prop :=
  ∀ (raw n : Nat) (acc : Wide) (y acc' : Int), raw ≤ 4095 →
    y = ((raw : Int) - 2048) * 65536 - acc.toInt → acc' = acc.toInt + Int.fdiv y (2 ^ n) →
    -(2 ^ 63) ≤ y → y < 2 ^ 63 → -(2 ^ 63) ≤ acc' → acc' < 2 ^ 63 →
    ∃ a o, dcbStep raw n acc = .next (a, o) ∧ a.toInt = acc' ∧ o.toInt = Int.fdiv y 4096

/-- R8 (and U3 of spec/93_implementation_defined.md): a `y` that does not fit 64 bits is refused. That `y` is checked
is notes/assumptions/11.md, DEDUCED. -/
def Obligations.DcbStepOverflowIsRefused : Prop :=
  ∀ (raw n : Nat) (acc : Wide) (y : Int), raw ≤ 4095 → y = ((raw : Int) - 2048) * 65536 - acc.toInt →
    y < -(2 ^ 63) ∨ 2 ^ 63 ≤ y → dcbStep raw n acc = .refused .wideOverflow

/-- Derived by the spec in R95 and R96: from an ACC in `[L, U]` an in-contract step answers, keeps ACC in `[L, U]`
and between the old ACC and `wide`, and its output lies in `[-65520, 65520]`. -/
def Obligations.DcbStepKeepsItsRanges : Prop :=
  ∀ (raw n : Nat) (acc : Wide), raw ≤ 4095 → AccInRange acc →
    ∃ a o, dcbStep raw n acc = .next (a, o) ∧ AccInRange a ∧ InputInRange o ∧
      (acc.toInt ≤ ((raw : Int) - 2048) * 65536 →
        acc.toInt ≤ a.toInt ∧ a.toInt ≤ ((raw : Int) - 2048) * 65536) ∧
      (((raw : Int) - 2048) * 65536 < acc.toInt →
        ((raw : Int) - 2048) * 65536 ≤ a.toInt ∧ a.toInt < acc.toInt)

/-- R94: a sample above 4095 is refused, whatever ACC and leak shift. -/
def Obligations.SampleAboveContractIsRefused : Prop :=
  ∀ (raw n : Nat) (acc : Wide), 4095 < raw → dcbStep raw n acc = .refused .inputOutOfRange

/-- Derived by the spec in R97: under a constant in-contract sample and the leak shift 4, from every ACC in its range
the DC blocker's output is 0 from some sample on, at the latest after 268 samples, and stays 0. The number 268 is the
model's own bound, DESIGN CHOICE, notes/assumptions/16.md; the spec gives exact indices for runs from reset only. -/
def Obligations.DcBlockerSettlesToZero : Prop :=
  ∀ (raw : Nat) (accs : Nat → Wide) (outs : Nat → Wide), raw ≤ 4095 → AccInRange (accs 0) →
    (∀ k, dcbStep raw 4 (accs k) = .next (accs (k + 1), outs k)) →
    ∀ k, 268 ≤ k → outs k = 0 ∧ accs (k + 1) = accs k

/-! ### The biquad (spec/42_biquad.md) -/

/-- R100: where the difference, the four products and the sum fit 64 bits, `BqStep` computes the source's recurrence,
shifts the delay line from the values before the step, and leaves ACC alone. -/
def Obligations.BqStepComputes : Prop :=
  ∀ (c : FilterConfiguration) (f : FilterState) (x : Wide) (d s : Int),
    d = f.x1.toInt - f.y1.toInt →
    s = c.cb0.toInt * x.toInt + c.cb1.toInt * d + c.cb2.toInt * f.x2.toInt - c.ca2.toInt * f.y2.toInt →
    (∀ v ∈ [d, c.cb0.toInt * x.toInt, c.cb1.toInt * d, c.cb2.toInt * f.x2.toInt, c.ca2.toInt * f.y2.toInt, s],
      -(2 ^ 63) ≤ v ∧ v < 2 ^ 63) →
    ∃ f', bqStep c f x = .next (f', Int.fdiv s 8192) ∧ f'.y1.toInt = Int.fdiv s 8192 ∧
      f'.x1 = x ∧ f'.x2 = f.x1 ∧ f'.y2 = f.y1 ∧ f'.acc = f.acc

/-- R105: the condition the spec calls sufficient is sufficient, for every coefficient quadruple. -/
def Obligations.BqStepFitsBelowTwoPow29 : Prop :=
  ∀ (c : FilterConfiguration) (f : FilterState) (x : Wide),
    (∀ v ∈ [x, f.x1, f.x2, f.y1, f.y2], -(2 ^ 29) < v.toInt ∧ v.toInt < 2 ^ 29) →
    ∃ f' y, bqStep c f x = .next (f', y)

/-- R105: a sum that does not fit 64 bits is refused. -/
def Obligations.BqSumOverflowIsRefused : Prop :=
  ∀ (c : FilterConfiguration) (f : FilterState) (x : Wide) (s : Int),
    s = c.cb0.toInt * x.toInt + c.cb1.toInt * (f.x1.toInt - f.y1.toInt) + c.cb2.toInt * f.x2.toInt -
      c.ca2.toInt * f.y2.toInt →
    (s < -(2 ^ 63) ∨ 2 ^ 63 ≤ s) → bqStep c f x = .refused .wideOverflow

/-- R105 and R8 (and U3): a difference or a product that does not fit 64 bits is refused, also where the sum fits.
R105 names the products; that the difference is checked too is notes/assumptions/11.md, DEDUCED. -/
def Obligations.BqIntermediateOverflowIsRefused : Prop :=
  ∀ (c : FilterConfiguration) (f : FilterState) (x : Wide) (d : Int), d = f.x1.toInt - f.y1.toInt →
    (∃ v ∈ [d, c.cb0.toInt * x.toInt, c.cb1.toInt * d, c.cb2.toInt * f.x2.toInt, c.ca2.toInt * f.y2.toInt],
      v < -(2 ^ 63) ∨ 2 ^ 63 ≤ v) →
    bqStep c f x = .refused .wideOverflow

/-- Derived by the spec in R107: with `ROM[3]` and values of magnitude at most 40438, the sum whose floor the step
returns is at most 2147459990 in magnitude, and it and each of its four products fit 32 bits. -/
def Obligations.Profile3SumFits32BitsWhenSmall : Prop :=
  ∀ (f : FilterState) (x : Wide),
    (∀ v ∈ [x, f.x1, f.x2, f.y1, f.y2], -40438 ≤ v.toInt ∧ v.toInt ≤ 40438) →
    ∃ p0 p1 p2 p3 : Int,
      p0 = profile3.cb0.toInt * x.toInt ∧ p1 = profile3.cb1.toInt * bqDiff f ∧
      p2 = profile3.cb2.toInt * f.x2.toInt ∧ p3 = profile3.ca2.toInt * f.y2.toInt ∧
      bqSum profile3 f x = p0 + p1 + p2 - p3 ∧
      -2147459990 ≤ bqSum profile3 f x ∧ bqSum profile3 f x ≤ 2147459990 ∧
      (∀ v ∈ [p0, p1, p2, p3, bqSum profile3 f x], -(2 ^ 31) < v ∧ v < 2 ^ 31) ∧
      ∃ f', bqStep profile3 f x = .next (f', Int.fdiv (bqSum profile3 f x) 8192)

/-- Derived by the spec in R108 (b): with `ROM[3]`, no input and both outputs `v`, the recurrence rests exactly for `v`
from -6 to 0. -/
def Obligations.ZeroInputRestsFromMinus6To0 : Prop :=
  ∀ (acc v : Wide), -(2 ^ 29) < v.toInt → v.toInt < 2 ^ 29 →
    ∃ f' y, bqStep profile3 ⟨acc, 0, 0, v, v⟩ 0 = .next (f', y) ∧ (y = v.toInt ↔ -6 ≤ v.toInt ∧ v.toInt ≤ 0)

/-- Derived by the spec in R108 (c): with `ROM[3]` the state settled under constant 4095 recurs after 16 samples, whose
outputs are the limit cycle listed there. -/
def Obligations.LimitCycleAfterConstant4095 : Prop :=
  filterRun profile3 ⟨134152177, 0, 0, BitVec.ofInt 64 (-5), BitVec.ofInt 64 (-2)⟩ (List.replicate 16 4095) =
    .next (⟨134152177, 0, 0, BitVec.ofInt 64 (-5), BitVec.ofInt 64 (-2)⟩,
      [-8, -10, -11, -11, -10, -8, -5, -2, 1, 3, 4, 4, 3, 1, -2, -5].map (BitVec.ofInt 16))

/-! ### The pipeline and PROC (spec/43_pipeline.md) -/

/-- R110, R111: the clamp, and the stored pattern of its result; 8000H is never stored. -/
def Obligations.Sat16Clamps : Prop :=
  ∀ v : Int,
    sat16 v = (if v > 32767 then 32767 else if v < -32767 then -32767 else v) ∧
    (outElement (sat16 v)).toInt = sat16 v ∧ outElement (sat16 v) ≠ 0x8000 ∧
    (32767 ≤ v → outElement (sat16 v) = 0x7FFF) ∧ (v ≤ -32767 → outElement (sat16 v) = 0x8001)

/-- R112, R103: a sample step is the DC blocker with leak shift 4, then the biquad on its output; Y1 keeps the
unsaturated value and only the returned element is clamped. A sample above 4095 is refused. -/
def Obligations.SampleStepClampsOnlyTheOutput : Prop :=
  (∀ (c : FilterConfiguration) (f f' : FilterState) (raw : Nat) (a d : Wide) (y : Int),
    dcbStep raw 4 f.acc = .next (a, d) → bqStep c { f with acc := a } d = .next (f', y) →
    ∃ o, sampleStep c f raw = .next (f', o) ∧ f'.acc = a ∧ f'.y1.toInt = y ∧
      o.toInt = (if y > 32767 then 32767 else if y < -32767 then -32767 else y)) ∧
  ∀ (c : FilterConfiguration) (f : FilterState) (raw : Nat), 4095 < raw →
    sampleStep c f raw = .refused .inputOutOfRange

/-- Derived by the spec in R116: a `PROC` with a count of zero or less examines no address, touches no memory and no
data register; configured, it sets MODE to Running and advances `pc` by 4; unconfigured, it faults with cause 3. -/
def Obligations.ProcOfNoSamplesOnlyRuns : Prop :=
  ∀ (s : State) (out inp count : Word), count.toInt ≤ 0 →
    (∀ c, ConfiguredWith s c → exec (.proc out inp count) s = .next { s with mode := .running, pc := s.pc + 4 }) ∧
    (s.mode = .uninitialized → exec (.proc out inp count) s = .next { s with cause := some .notConfigured })

/-- R119: the checks of `PROC` in their order, the first that fails giving the cause; nothing but FAULT and CAUSE
changes (R152). Only the mode is checked where `count` is zero or less. -/
def Obligations.ProcFaultsInOrder : Prop :=
  ∀ (s : State) (out inp count : Word),
    let faults := fun (c : Cause) => exec (.proc out inp count) s = .next { s with cause := some c }
    let o : Int := out.toNat
    let i : Int := inp.toNat
    let len : Int := 2 * count.toInt
    (s.mode = .uninitialized → faults .notConfigured) ∧
    (∀ c, ConfiguredWith s c → count.toInt ≤ 0 →
      exec (.proc out inp count) s = .next { s with mode := .running, pc := s.pc + 4 }) ∧
    (∀ c, ConfiguredWith s c → 0 < count.toInt →
      (o % 2 = 1 ∨ i % 2 = 1 → faults .misalignedBuffer) ∧
      (o % 2 = 0 → i % 2 = 0 →
        (o + len > 2 ^ 32 ∨ i + len > 2 ^ 32 → faults .addressRange) ∧
        (o + len ≤ 2 ^ 32 → i + len ≤ 2 ^ 32 →
          (o < i + len ∧ i < o + len → faults .bufferOverlap) ∧
          (¬(o < i + len ∧ i < o + len) →
            (∃ a : Nat, (i ≤ a ∧ (a : Int) < i + len ∧ memValid s.regions .read a = false) ∨
              (o ≤ a ∧ (a : Int) < o + len ∧ memValid s.regions .write a = false)) →
            faults .busError))))

/-- R115: a configured `PROC` whose buffers pass the checks, and whose input the filter runs over, completes: the
output buffer holds the filter's outputs in order, FilterState is the filter's, MODE is Running, `pc` is 4 further,
every byte outside the output buffer and every other piece of state is as before. -/
def Obligations.ProcIsTheFilterOverTheBuffer : Prop :=
  ∀ (s : State) (c : FilterConfiguration) (out inp count : Word) (n : Nat) (f : FilterState) (outs : List Half),
    ConfiguredWith s c → Mem.wf s.mem = true → count.toInt = n → 0 < n →
    BuffersOk s.regions out.toNat inp.toNat n →
    filterRun c s.filter (elems s.mem inp.toNat n) = .next (f, outs) →
    ∃ m, exec (.proc out inp count) s = .next { s with filter := f, mem := m, mode := .running, pc := s.pc + 4 } ∧
      elems m out.toNat n = outs ∧ Mem.wf m = true ∧
      ∀ a, a < out.toNat ∨ out.toNat + 2 * n ≤ a → Mem.byteAt m a = Mem.byteAt s.mem a

/-- R42, R165: where the filter over the input is refused (an element above 4095, a value that does not fit), so is
the `PROC`, with the same name. -/
def Obligations.ProcIsRefusedWhereTheFilterIs : Prop :=
  ∀ (s : State) (c : FilterConfiguration) (out inp count : Word) (n : Nat) (r : Refusal),
    ConfiguredWith s c → Mem.wf s.mem = true → count.toInt = n → 0 < n →
    BuffersOk s.regions out.toNat inp.toNat n →
    filterRun c s.filter (elems s.mem inp.toNat n) = .refused r →
    exec (.proc out inp count) s = .refused r

/-- R47 (and U6) with notes/assumptions/12.md, DEDUCED: a configured `PROC` whose buffers pass every check of R119 is
refused as `deviceRegion` exactly if a byte of its buffers lies in a region with side effects. -/
def Obligations.ProcOverADeviceIsRefused : Prop :=
  ∀ (s : State) (c : FilterConfiguration) (out inp count : Word) (n : Nat),
    ConfiguredWith s c → count.toInt = n → 0 < n → ChecksPass s.regions out.toNat inp.toNat n →
    (exec (.proc out inp count) s = .refused .deviceRegion ↔
      ∃ a, isDevice s.regions a = true ∧
        (inp.toNat ≤ a ∧ a < inp.toNat + 2 * n ∨ out.toNat ≤ a ∧ a < out.toNat + 2 * n))

/-- R112, R113, R90, R100 for a `PROC` of one sample, in integers, for every profile: if the sample is in contract,
ACC in its range and the delay line below `2^29` (R105), the command completes and the element stored is the clamp of
the recurrence of the narrowed high-passed sample. -/
def Obligations.ProcOfOneSampleInIntegers : Prop :=
  ∀ (s : State) (c : FilterConfiguration) (out inp count : Word) (raw : Nat) (yd d y : Int),
    ConfiguredWith s c → Mem.wf s.mem = true → count.toInt = 1 → BuffersOk s.regions out.toNat inp.toNat 1 →
    AccInRange s.filter.acc →
    (∀ v ∈ [s.filter.x1, s.filter.x2, s.filter.y1, s.filter.y2], -(2 ^ 29) < v.toInt ∧ v.toInt < 2 ^ 29) →
    raw = (Mem.byteAt s.mem inp.toNat).toNat + 256 * (Mem.byteAt s.mem (inp.toNat + 1)).toNat → raw ≤ 4095 →
    yd = ((raw : Int) - 2048) * 65536 - s.filter.acc.toInt → d = Int.fdiv yd 4096 →
    y = Int.fdiv (c.cb0.toInt * d + c.cb1.toInt * (s.filter.x1.toInt - s.filter.y1.toInt) +
      c.cb2.toInt * s.filter.x2.toInt - c.ca2.toInt * s.filter.y2.toInt) 8192 →
    ∃ t, exec (.proc out inp count) s = .next t ∧ t.mode = .running ∧ t.pc = s.pc + 4 ∧ t.cause = s.cause ∧
      t.filter.acc.toInt = s.filter.acc.toInt + Int.fdiv yd 16 ∧ t.filter.x1.toInt = d ∧
      t.filter.x2 = s.filter.x1 ∧ t.filter.y1.toInt = y ∧ t.filter.y2 = s.filter.y1 ∧
      (elemAt t.mem out.toNat 0).toInt = (if y > 32767 then 32767 else if y < -32767 then -32767 else y)

/-- Derived by the spec in R105 and R106 ("For `ROM[3]` and in-contract input this never happens"): with profile 3,
from a bounded FilterState, a `PROC` of any length over in-contract samples whose buffers pass the checks completes,
is never refused, and leaves a bounded FilterState. The bound of the delay line is the model's own
(notes/assumptions/16.md). -/
def Obligations.Profile3NeverOverflows : Prop :=
  ∀ (s : State) (out inp count : Word) (n : Nat),
    ConfiguredWith s profile3 → Mem.wf s.mem = true →
    Profile3Bounded s.filter → count.toInt = n → 0 < n → BuffersOk s.regions out.toNat inp.toNat n →
    (∀ i, i < n → (elemAt s.mem inp.toNat i).toNat ≤ 4095) →
    ∃ t, exec (.proc out inp count) s = .next t ∧ Profile3Bounded t.filter ∧ t.cause = s.cause ∧
      t.mode = .running ∧ t.pc = s.pc + 4

/-- R117: a `PROC` of `n + m` samples that does not fault leaves the registers and the memory that a `PROC` of the
first `n` and then one of the next `m` leave; only `pc` tells them apart. -/
def Obligations.ProcStateContinuity : Prop :=
  ∀ (s t : State) (out inp n m : Word),
    0 ≤ n.toInt → 0 ≤ m.toInt → n.toInt + m.toInt < 2 ^ 31 → Mem.wf s.mem = true → s.cause = none →
    exec (.proc out inp (n + m)) s = .next t → t.cause = none →
    ∃ u, exec (.proc out inp n) s = .next u ∧ u.cause = none ∧
      exec (.proc (out + 2 * n) (inp + 2 * n) m) u = .next { t with pc := t.pc + 4 }

/-- R111: after a `PROC` that completes, every element of the output buffer lies in `[-32767, 32767]`. -/
def Obligations.ProcOutputsAreSaturated : Prop :=
  ∀ (s t : State) (out inp count : Word) (i : Nat), Mem.wf s.mem = true → s.cause = none →
    exec (.proc out inp count) s = .next t → t.cause = none → (i : Int) < count.toInt →
    -32767 ≤ (elemAt t.mem out.toNat i).toInt ∧ (elemAt t.mem out.toNat i).toInt ≤ 32767

/-- R46 and the frame of `PROC`: whatever next state it gives, no byte outside `[out, out + 2*count)` changes, the
input buffer of a completed one among them, and of the registers only FilterState, MODE, FAULT, CAUSE and `pc` may
change. -/
def Obligations.ProcFrame : Prop :=
  ∀ (s t : State) (out inp count : Word), exec (.proc out inp count) s = .next t →
    t.config = s.config ∧ t.results = s.results ∧ t.refdc = s.refdc ∧ t.stream = s.stream ∧ t.regions = s.regions ∧
    (∀ a : Nat, (a : Int) < out.toNat ∨ (out.toNat : Int) + 2 * count.toInt ≤ a → Mem.byteAt t.mem a = Mem.byteAt s.mem a) ∧
    (s.cause = none → t.cause = none → ∀ i : Nat, (i : Int) < count.toInt →
      elemAt t.mem inp.toNat i = elemAt s.mem inp.toNat i)

/-- R118: the result of a `PROC` is a function of the five data registers, the four coefficient registers and the
input elements: two states that agree on them (and on the map) give the same FilterState and the same output elements,
whatever else differs, SEL, memory elsewhere and the results among it. -/
def Obligations.ProcDependsOnlyOnItsInputs : Prop :=
  ∀ (s1 s2 t1 : State) (c1 c2 : FilterConfiguration) (out inp count : Word) (n : Nat),
    ConfiguredWith s1 c1 → ConfiguredWith s2 c2 →
    c1.ca2 = c2.ca2 → c1.cb0 = c2.cb0 → c1.cb1 = c2.cb1 → c1.cb2 = c2.cb2 →
    s1.filter = s2.filter → s1.regions = s2.regions → Mem.wf s1.mem = true → Mem.wf s2.mem = true →
    count.toInt = n → elems s1.mem inp.toNat n = elems s2.mem inp.toNat n →
    BuffersOk s1.regions out.toNat inp.toNat n → exec (.proc out inp count) s1 = .next t1 →
    ∃ t2, exec (.proc out inp count) s2 = .next t2 ∧ t2.filter = t1.filter ∧
      elems t2.mem out.toNat n = elems t1.mem out.toNat n

/-- R135's example: after any history, `RSTATE` and then a `PROC` give the output elements and the FilterState of the
same `PROC` issued after a reset and the same `INIT`. -/
def Obligations.RstateIsACleanStart : Prop :=
  ∀ (s t : State) (sel out inp count : Word) (n : Nat),
    s.config = some (configOf (resolve sel.toInt)) → s.mode ≠ .uninitialized → Mem.wf s.mem = true →
    count.toInt = n → BuffersOk s.regions out.toNat inp.toNat n →
    andThen (exec .rstate s) (exec (.proc out inp count)) = .next t →
    ∃ t', andThen (exec (.init sel) (resetInput s)) (exec (.proc out inp count)) = .next t' ∧
      t'.filter = t.filter ∧ elems t'.mem out.toNat n = elems t.mem out.toNat n

/-- R97 with S4 of spec/95_test_vectors.md: under every profile, from the zero FilterState, mid-scale input of any
length gives output 0 throughout and leaves the zero FilterState. -/
def Obligations.MidScaleInputIsSilent : Prop :=
  ∀ (c : FilterConfiguration) (n : Nat),
    filterRun c ⟨0, 0, 0, 0, 0⟩ (List.replicate n 2048) = .next (⟨0, 0, 0, 0, 0⟩, List.replicate n 0)

/-! ### Memory (spec/20_memory.md) -/

/-- R44: a 16-bit write puts bits 7:0 at the address and bits 15:8 at the next, a 16-bit read gives
`byte(a) + 256 * byte(a + 1)`, and a read after the write gives the element back. -/
def Obligations.ElementsAreLittleEndian : Prop :=
  ∀ (m : Mem) (a : Nat) (v : Half), Mem.wf m = true → a + 2 ≤ 2 ^ 32 →
    (∃ m', memWrite16 m a v = .next m' ∧ (Mem.byteAt m' a).toNat = v.toNat % 256 ∧ (Mem.byteAt m' (a + 1)).toNat = v.toNat / 256 ∧
      memRead16 m' a = .next v ∧ Mem.wf m' = true ∧ ∀ x, x ≠ a → x ≠ a + 1 → Mem.byteAt m' x = Mem.byteAt m x) ∧
    ∃ w, memRead16 m a = .next w ∧ w.toNat = (Mem.byteAt m a).toNat + 256 * (Mem.byteAt m (a + 1)).toNat

/-! ### The reference blocker (spec/44_reference_blocker.md), where the build has it -/

/-- R126: the words of `RDC.SET coeff` are 00000010H and `coeff`; it writes RCOEF with the operand clamped to
`[3, 8000]`, advances `pc` by 2, and changes nothing else; without the option it is an illegal command. -/
def Obligations.RdcSetClamps : Prop :=
  ∀ (s : State) (coeff : Word),
    encode (.rdcSet coeff) = [0x00000010, coeff] ∧
    (∀ b, s.refdc = some b →
      ∃ v : Wide, exec (.rdcSet coeff) s =
          .next { s with refdc := some { b with rcoef := some v }, pc := s.pc + 2 } ∧
        v.toInt = (if coeff.toInt < 3 then 3 else if coeff.toInt > 8000 then 8000 else coeff.toInt)) ∧
    (s.refdc = none → exec (.rdcSet coeff) s = .next { s with cause := some .illegalCommand })

/-- R127 (what RefPre gives is OPEN, R128): the words of `RDC.STEP input` are 00000011H and `input`. With a written RCOEF, where the values fit their
registers, RACC accumulates the previous output times RCOEF, ROUT is RefPre of the operand less the shifted new RACC,
ROUT is pushed, `pc` advances by 2, nothing else changes. Before the first `RDC.SET` it faults with cause 3. -/
def Obligations.RdcStepComputesOrFaults : Prop :=
  ∀ (s : State) (b : RefBlocker) (input : Word), s.refdc = some b →
    encode (.rdcStep input) = [0x00000011, input] ∧
    (b.rcoef = none → exec (.rdcStep input) s = .next { s with cause := some .notConfigured }) ∧
    ∀ (coef : Wide) (p acc out : Int),
      b.rcoef = some coef → p = b.rout.toInt * coef.toInt → acc = b.racc.toInt + p →
      out = (Config.refPre input).toInt - Int.fdiv acc 16384 →
      (∀ v ∈ [p, acc, out], -(2 ^ 63) ≤ v ∧ v < 2 ^ 63) →
      ∃ a o : Wide, exec (.rdcStep input) s =
          .next { s with
            refdc := some { racc := a, rcoef := some coef, rout := o }
            results := s.results ++ [o]
            pc := s.pc + 2 } ∧
        a.toInt = acc ∧ o.toInt = out

/-- R129 (and R8, U3): an `RDC.STEP` with a written RCOEF whose product, new RACC or new ROUT does not fit 64 bits is
refused. That the product is checked is notes/assumptions/11.md, DEDUCED. -/
def Obligations.RdcStepOverflowIsRefused : Prop :=
  ∀ (s : State) (b : RefBlocker) (input : Word) (coef : Wide) (p acc out : Int),
    s.refdc = some b → b.rcoef = some coef → p = b.rout.toInt * coef.toInt → acc = b.racc.toInt + p →
    out = (Config.refPre input).toInt - Int.fdiv acc 16384 →
    (∃ v ∈ [p, acc, out], v < -(2 ^ 63) ∨ 2 ^ 63 ≤ v) →
    exec (.rdcStep input) s = .refused .wideOverflow

/-- R71: on a build without the reference blocker, as this hardware is, every header with OP 10H or 11H faults with
cause 1 as soon as it is there, and so do the two commands; with it the headers decode as `RDC.SET` and `RDC.STEP`. -/
def Obligations.RdcIsIllegalWithoutTheOption : Prop :=
  Config.hasRefDc = false ∧
  ∀ (s : State) (h w : Word) (rest : List Word),
    (s.refdc = none →
      exec (.rdcSet w) s = .next { s with cause := some .illegalCommand } ∧
      exec (.rdcStep w) s = .next { s with cause := some .illegalCommand } ∧
      (s.cause = none → s.stream.drop s.pc = h :: rest → h.toNat % 256 = 0x10 ∨ h.toNat % 256 = 0x11 →
        step s = .next { s with cause := some .illegalCommand })) ∧
    decode true (0x10 :: w :: rest) = .command (.rdcSet w) ∧ decode true (0x11 :: w :: rest) = .command (.rdcStep w)

/-! ### Reset (spec/10_state.md R27, spec/70_reset_and_hazards.md R170) -/

/-- R27, R171: after reset the state is as in the table: from every state, and in the model's own reset state. The
words delivered before it (the list of notes/assumptions/7.md) are forgotten, the block waits, and the next words
delivered are counted from 0. -/
def Obligations.ResetLeavesTheTable : Prop :=
  (∀ s : State,
    (resetInput s).filter = ⟨0, 0, 0, 0, 0⟩ ∧ (resetInput s).config = none ∧ (resetInput s).mode = .uninitialized ∧
    (resetInput s).cause = none ∧ (resetInput s).pc = 0 ∧ (resetInput s).results = [] ∧
    (resetInput s).status = 0 ∧ (resetInput s).mem = s.mem ∧
    ((resetInput s).refdc.isSome = s.refdc.isSome) ∧ (resetInput s).stream = [] ∧
    step (resetInput s) = .next (resetInput s) ∧
    (∀ ws : List Word, let t := deliverWords ws (resetInput s)
      t.pc = 0 ∧ t.stream = ws ∧ t.stream.drop t.pc = ws) ∧
    ∀ b, (resetInput s).refdc = some b → b.racc = 0 ∧ b.rout = 0 ∧ b.rcoef = none) ∧
  State.reset.filter = ⟨0, 0, 0, 0, 0⟩ ∧ State.reset.config = none ∧ State.reset.mode = .uninitialized ∧
  State.reset.cause = none ∧ State.reset.pc = 0 ∧ State.reset.results = [] ∧ State.reset.refdc = none ∧
  State.reset.stream = [] ∧ step State.reset = .next State.reset

/-! ### The whole machine -/

/-- Every step keeps the invariant: memory canonical, configuration unwritten exactly in mode Uninitialized and
otherwise one whole ROM profile, ACC, X1, X2 and RCOEF in their ranges, `pc` inside the stream. -/
def Obligations.StepKeepsTheInvariant : Prop :=
  ∀ s t : State, Inv s → step s = .next t → Inv t

/-- The invariant holds at reset, and after a reset from every state with a canonical memory. -/
def Obligations.ResetMeetsTheInvariant : Prop :=
  Inv State.reset ∧ ∀ s : State, Mem.wf s.mem = true → Inv (resetInput s)

/-- Derived by the spec in R25 from R12, R13 and R14: which command may change which state. That no command changes the
words delivered, the platform's map or the build rests on how the model holds them (notes/assumptions/7.md, 2.md and
6.md, DESIGN CHOICE). -/
def Obligations.OnlyTheListedCommandsWrite : Prop :=
  ∀ (i : Instr) (s t : State), exec i s = .next t →
    (t.filter ≠ s.filter → (∃ out inp count, i = .proc out inp count) ∨ i = .rstate) ∧
    (t.config ≠ s.config → ∃ sel, i = .init sel) ∧
    (t.mem ≠ s.mem → ∃ out inp count, i = .proc out inp count) ∧
    (t.results ≠ s.results → (∃ r, i = .rdreg r) ∨ ∃ w, i = .rdcStep w) ∧
    (t.refdc ≠ s.refdc → (∃ w, i = .rdcSet w) ∨ ∃ w, i = .rdcStep w) ∧
    t.refdc.isSome = s.refdc.isSome ∧ t.stream = s.stream ∧ t.regions = s.regions

/-- R152, R153: faults are precise: a step after which the block is halted has changed nothing but FAULT and CAUSE. -/
def Obligations.FaultsArePrecise : Prop :=
  ∀ (s t : State) (c : Cause), s.cause = none → step s = .next t → t.cause = some c →
    t = { s with cause := some c }

/-- R20: a command that completes without fault advances `pc` by its length in words; one that faults leaves `pc` at
its header. There is no other way to change `pc`. -/
def Obligations.PcAdvancesByTheCommandLength : Prop :=
  ∀ (i : Instr) (s t : State), s.cause = none → exec i s = .next t →
    (t.cause = none ∧ t.pc = s.pc + (encode i).length) ∨ (t.cause ≠ none ∧ t.pc = s.pc)

/-- R18, R157: MODE moves only along the lifecycle: `INIT` enters Configured, a completed `PROC` enters Running,
nothing else changes it, and no step enters Uninitialized. -/
def Obligations.ModeFollowsTheLifecycle : Prop :=
  (∀ (sel : Word) (s t : State), exec (.init sel) s = .next t → t.mode = .configured) ∧
  (∀ (out inp count : Word) (s t : State), s.cause = none → exec (.proc out inp count) s = .next t →
    t.mode = (if t.cause = none then .running else s.mode)) ∧
  (∀ (i : Instr) (s t : State), exec i s = .next t → t.mode ≠ s.mode →
    (∃ sel, i = .init sel) ∨ ∃ out inp count, i = .proc out inp count) ∧
  (∀ s t : State, step s = .next t → t.mode = .uninitialized → s.mode = .uninitialized)

/-- Derived from R48 and R119: because `PROC` checks its ranges first, no step ever reaches an address outside the
address space. -/
def Obligations.StepNeverLeavesTheAddressSpace : Prop :=
  ∀ (s : State) (r : Fault), step s ≠ .fault r

/-- Derived from R145 and R165: only a `PROC`, or an `RDC.STEP` where it exists, is ever refused, and only for a
reason the spec names. -/
def Obligations.OnlyProcAndRdcStepAreRefused : Prop :=
  ∀ (i : Instr) (s : State) (r : Refusal), exec i s = .refused r →
    ((∃ out inp count, i = .proc out inp count) ∨ ((∃ w, i = .rdcStep w) ∧ r = .wideOverflow)) ∧
    (r = .inputOutOfRange ∨ r = .wideOverflow ∨ r = .deviceRegion)

/-- R31: the result stream only grows, by at most one value a step, at its end. -/
def Obligations.ResultStreamIsAppendOnly : Prop :=
  ∀ s t : State, step s = .next t → t.results = s.results ∨ ∃ v, t.results = s.results ++ [v]
end

