-- ==== Sys2Proof/Laws/Arith.lean ====
section
/-! SUPPORT. The integer primitives of R9 and the passage between integers and 64-bit registers. -/

namespace Sys2Proof.Laws

open Sys2Proof.Machine

theorem fitsWide_iff (v : Int) : fitsWide v = true ↔ -(2 : Int) ^ 63 ≤ v ∧ v ≤ (2 : Int) ^ 63 - 1 := by
  simp [fitsWide]

/-- A register that was written with a value that fits reads back as that value. -/
theorem toInt_wide {v : Int} (h : fitsWide v = true) : (wide v).toInt = v := by
  rw [fitsWide_iff] at h
  simp only [wide, BitVec.toInt_ofInt]
  have := Int.bmod_eq_of_le (n := v) (m := 2 ^ 64) (by omega) (by omega)
  exact_mod_cast this

/-- Every register value fits. -/
theorem fitsWide_toInt (x : Wide) : fitsWide x.toInt = true := by
  rw [fitsWide_iff]
  have h1 := BitVec.toInt_lt (x := x)
  have h2 := BitVec.le_toInt (x := x)
  norm_num at h1 h2 ⊢
  omega

/-- `asr` is the floor: the largest integer whose multiple by the power of two does not pass `v`. -/
theorem asr_spec (v : Int) (n : Nat) : asr v n * 2 ^ n ≤ v ∧ v < (asr v n + 1) * 2 ^ n := by
  have hp : (0 : Int) < 2 ^ n := by positivity
  unfold asr
  constructor
  · exact Int.ediv_mul_le v hp.ne'
  · exact Int.lt_ediv_add_one_mul_self v hp

theorem asr_eq_fdiv (v : Int) (n : Nat) : asr v n = Int.fdiv v (2 ^ n) := by
  rw [Int.fdiv_eq_ediv_of_nonneg _ (by positivity)]
  rfl

/-- A shift takes a value no further from zero than it was, but for the step to -1. -/
theorem asr_nonneg {v : Int} (n : Nat) (h : 0 ≤ v) : 0 ≤ asr v n ∧ asr v n ≤ v := by
  have hp : (1 : Int) ≤ 2 ^ n := one_le_pow₀ (by norm_num)
  exact ⟨Int.ediv_nonneg h (by omega), Int.ediv_le_self _ h⟩

theorem asr_neg {v : Int} (n : Nat) (h : v < 0) : v ≤ asr v n ∧ asr v n ≤ -1 := by
  have hp : (1 : Int) ≤ 2 ^ n := one_le_pow₀ (by norm_num)
  have hs := asr_spec v n
  constructor
  · by_contra hc
    have h1 : (asr v n + 1) * 2 ^ n ≤ (asr v n + 1) * 1 ∨ 0 < asr v n + 1 := by
      rcases le_or_gt (asr v n + 1) 0 with h0 | h0
      · left; exact mul_le_mul_of_nonpos_left hp h0
      · right; exact h0
    rcases h1 with h1 | h1 <;> omega
  · by_contra hc
    have h0 : 0 ≤ asr v n := by omega
    have : 0 ≤ asr v n * 2 ^ n := mul_nonneg h0 (by omega)
    omega

theorem fitsWide_asr {v : Int} (n : Nat) (h : fitsWide v = true) : fitsWide (asr v n) = true := by
  rw [fitsWide_iff] at h ⊢
  rcases le_or_gt 0 v with h0 | h0
  · have := asr_nonneg n h0; omega
  · have := asr_neg n h0; omega

/-- What `clamp` gives, for bounds in order. -/
theorem clamp_spec {v lo hi : Int} (h : lo ≤ hi) :
    lo ≤ clamp v lo hi ∧ clamp v lo hi ≤ hi ∧ (lo ≤ v → v ≤ hi → clamp v lo hi = v) := by
  unfold clamp
  refine ⟨?_, ?_, ?_⟩
  · split
    · omega
    · split <;> omega
  · split
    · omega
    · split <;> omega
  · intro h1 h2
    simp [not_lt.mpr h1, not_lt.mpr h2]

end Sys2Proof.Laws
end

