-- ==== Sys2Proof/Laws/Decode.lean ====
section
/-! SUPPORT. The fields of a header word, and what the decoder makes of the header of each command. -/

namespace Sys2Proof.Laws

theorem opField_toNat (h : Word) : (opField h).toNat = h.toNat % 256 := by
  simp [opField, BitVec.extractLsb'_toNat]

theorem regField_toNat (h : Word) : (regField h).toNat = h.toNat / 256 % 256 := by
  simp [regField, BitVec.extractLsb'_toNat, Nat.shiftRight_eq_div_pow]

theorem reservedField_toNat (h : Word) : (reservedField h).toNat = h.toNat / 65536 := by
  have := h.isLt
  simp [reservedField, BitVec.extractLsb'_toNat, Nat.shiftRight_eq_div_pow]
  omega

theorem headerWord_toNat (op r : BitVec 8) : (headerWord op r).toNat = r.toNat * 256 + op.toNat := by
  have h1 : (r.toNat <<< 8 ||| op.toNat) = r.toNat <<< 8 + op.toNat :=
    (Nat.shiftLeft_add_eq_or_of_lt op.isLt r.toNat).symm
  have h2 := BitVec.toNat_append (0#16 ++ r) op
  have h3 := BitVec.toNat_append 0#16 r
  have h4 : (headerWord op r).toNat = ((0#16 ++ r) ++ op).toNat := rfl
  have h5 : (0#16).toNat <<< 8 ||| r.toNat = r.toNat := by simp
  rw [h4, h2, h3, h5, h1, Nat.shiftLeft_eq]

theorem opField_headerWord (op r : BitVec 8) : opField (headerWord op r) = op := by
  have := op.isLt
  apply BitVec.eq_of_toNat_eq
  rw [opField_toNat, headerWord_toNat]
  omega

theorem regField_headerWord (op r : BitVec 8) : regField (headerWord op r) = r := by
  have := op.isLt
  have := r.isLt
  apply BitVec.eq_of_toNat_eq
  rw [regField_toNat, headerWord_toNat]
  omega

theorem reservedField_headerWord (op r : BitVec 8) : reservedField (headerWord op r) = 0 := by
  have := op.isLt
  have := r.isLt
  apply BitVec.eq_of_toNat_eq
  rw [reservedField_toNat, headerWord_toNat]
  simp
  omega

/-- A header with zero reserved bits is its two other fields (R61). -/
theorem header_eq_fields (h : Word) (hr : reservedField h = 0) : h = headerWord (opField h) (regField h) := by
  have h0 : h.toNat / 65536 = 0 := by
    have := congrArg BitVec.toNat hr
    rwa [reservedField_toNat] at this
  apply BitVec.eq_of_toNat_eq
  rw [headerWord_toNat, opField_toNat, regField_toNat]
  omega

theorem ofNumber_number (r : RegName) : RegName.ofNumber r.number = some r := by
  cases r <;> rfl

/-- Only the register's own number names it (R26). -/
theorem number_of_ofNumber {v : BitVec 8} {r : RegName} (h : RegName.ofNumber v = some r) : v = r.number := by
  unfold RegName.ofNumber at h
  apply BitVec.eq_of_toNat_eq
  split at h <;> simp only [Option.some.injEq, reduceCtorEq] at h <;> subst h <;> assumption

theorem plainHeader_eq_legal {op op' : Opcode} {h : Word} :
    plainHeader op h = .legal op' ↔ op = op' ∧ regField h = 0 := by
  unfold plainHeader
  split <;> simp_all

theorem refdcHeader_eq_legal {refdc : Bool} {op op' : Opcode} {h : Word} :
    refdcHeader refdc op h = .legal op' ↔ refdc = true ∧ op = op' ∧ regField h = 0 := by
  unfold refdcHeader
  cases refdc <;> simp [plainHeader_eq_legal]

theorem rdregHeader_eq_legal {refdc : Bool} {op : Opcode} {h : Word} :
    rdregHeader refdc h = .legal op ↔
      ∃ r, op = .rdreg r ∧ regField h = r.number ∧ r.existsIn refdc = true := by
  unfold rdregHeader
  constructor
  · intro hd
    split at hd
    · rename_i r hr
      split at hd
      · simp only [Header.legal.injEq] at hd
        exact ⟨r, hd.symm, number_of_ofNumber hr, ‹_›⟩
      · simp at hd
    · simp at hd
  · rintro ⟨r, rfl, hr, he⟩
    simp [hr, ofNumber_number, he]

/-- Everything a legal header can be (R68). -/
theorem decodeHeader_legal {refdc : Bool} {h : Word} {op : Opcode} (hd : decodeHeader refdc h = .legal op) :
    reservedField h = 0 ∧
      ((op = .init ∧ opField h = 0x01 ∧ regField h = 0) ∨
       (op = .proc ∧ opField h = 0x02 ∧ regField h = 0) ∨
       (op = .rstate ∧ opField h = 0x03 ∧ regField h = 0) ∨
       (∃ r, op = .rdreg r ∧ opField h = 0x04 ∧ regField h = r.number ∧ r.existsIn refdc = true) ∨
       (op = .rdcSet ∧ opField h = 0x10 ∧ regField h = 0 ∧ refdc = true) ∨
       (op = .rdcStep ∧ opField h = 0x11 ∧ regField h = 0 ∧ refdc = true)) := by
  unfold decodeHeader at hd
  split at hd
  · simp at hd
  · rename_i hres
    refine ⟨not_not.mp hres, ?_⟩
    have key : ∀ n : Nat, n < 256 → (opField h).toNat = n → opField h = BitVec.ofNat 8 n := by
      intro n hn e
      apply BitVec.eq_of_toNat_eq
      simp [e, Nat.mod_eq_of_lt hn]
    split at hd
    case h_1 e => rw [plainHeader_eq_legal] at hd; exact .inl ⟨hd.1.symm, key _ (by decide) e, hd.2⟩
    case h_2 e => rw [plainHeader_eq_legal] at hd; exact .inr (.inl ⟨hd.1.symm, key _ (by decide) e, hd.2⟩)
    case h_3 e => rw [plainHeader_eq_legal] at hd; exact .inr (.inr (.inl ⟨hd.1.symm, key _ (by decide) e, hd.2⟩))
    case h_4 e =>
      rw [rdregHeader_eq_legal] at hd
      obtain ⟨r, h1, h2, h3⟩ := hd
      exact .inr (.inr (.inr (.inl ⟨r, h1, key _ (by decide) e, h2, h3⟩)))
    case h_5 e =>
      rw [refdcHeader_eq_legal] at hd
      exact .inr (.inr (.inr (.inr (.inl ⟨hd.2.1.symm, key _ (by decide) e, hd.2.2, hd.1⟩))))
    case h_6 e =>
      rw [refdcHeader_eq_legal] at hd
      exact .inr (.inr (.inr (.inr (.inr ⟨hd.2.1.symm, key _ (by decide) e, hd.2.2, hd.1⟩))))
    case h_7 => simp at hd

/-- The decoder answers a command exactly through a legal header and its operand words (R73). -/
theorem decode_eq_command {refdc : Bool} {ws : List Word} {i : Instr} :
    decode refdc ws = .command i ↔
      ∃ h rest op, ws = h :: rest ∧ decodeHeader refdc h = .legal op ∧ assemble op rest = some i := by
  cases ws with
  | nil => simp [decode]
  | cons h rest =>
    unfold decode
    cases hd : decodeHeader refdc h with
    | illegal why => simp [hd]
    | legal op => cases ha : assemble op rest <;> simp [hd, ha]

end Sys2Proof.Laws
end

