-- ==== Sys2Proof/Laws/Outcome.lean ====
section
/-! SUPPORT. Sequencing of outcomes: one inversion lemma for each of the three results. -/

namespace Sys2Proof.Laws

open Sys2Proof.Machine

variable {α β : Type} {o : Host.Outcome α Fault Refusal} {k : α → Host.Outcome β Fault Refusal}

@[simp] theorem andThen_next (a : α) : andThen (.next a) k = k a := rfl
@[simp] theorem andThen_fault (r : Fault) : andThen (.fault r) k = .fault r := rfl
@[simp] theorem andThen_refused (r : Refusal) : andThen (.refused r) k = .refused r := rfl
@[simp] theorem nextOf_next (a : α) : nextOf (.next a) = some a := rfl

/-- A sequence answers a next value only through a next value of its first part. -/
theorem andThen_eq_next {b : β} : andThen o k = .next b ↔ ∃ a, o = .next a ∧ k a = .next b := by
  cases o <;> simp

theorem andThen_eq_fault {r : Fault} :
    andThen o k = .fault r ↔ o = .fault r ∨ ∃ a, o = .next a ∧ k a = .fault r := by
  cases o <;> simp

theorem andThen_eq_refused {r : Refusal} :
    andThen o k = .refused r ↔ o = .refused r ∨ ∃ a, o = .next a ∧ k a = .refused r := by
  cases o <;> simp

end Sys2Proof.Laws
end

