-- ==== Sys2Proof/Laws/Memory.lean ====
section
/-! SUPPORT. Memory: read after write, frame, canonical form, and that equal reads of canonical memories make equal
memories. -/

namespace Sys2Proof.Laws

open Sys2Proof.Machine

@[simp] theorem Mem_byteAt_nil (a : Nat) : Mem.byteAt [] a = Mem.unlisted := rfl

theorem Mem_wfFrom_cons {lo k : Nat} {b : Byte} {rest : Mem} :
    Mem.wfFrom lo ((k, b) :: rest) = true ↔
      lo ≤ k ∧ k < addressLimit ∧ b ≠ Mem.unlisted ∧ Mem.wfFrom (k + 1) rest = true := by
  simp [Mem.wfFrom, and_assoc]

theorem Mem_wfFrom_mono {lo lo' : Nat} {m : Mem} (h : Mem.wfFrom lo m = true) (hle : lo' ≤ lo) :
    Mem.wfFrom lo' m = true := by
  cases m with
  | nil => rfl
  | cons c rest =>
    obtain ⟨k, b⟩ := c
    rw [Mem_wfFrom_cons] at h ⊢
    exact ⟨by omega, h.2⟩

/-- Below its first address a canonical memory lists nothing. -/
theorem Mem_byteAt_below {lo a : Nat} {m : Mem} (h : Mem.wfFrom lo m = true) (ha : a < lo) : m.byteAt a = Mem.unlisted := by
  induction m generalizing lo with
  | nil => rfl
  | cons c rest ih =>
    obtain ⟨k, b⟩ := c
    rw [Mem_wfFrom_cons] at h
    have hk : k ≠ a := by omega
    simp only [Mem.byteAt, hk, if_false]
    exact ih h.2.2.2 (by omega)

theorem Mem_put_wfFrom {lo a : Nat} {m : Mem} {b : Byte} (h : Mem.wfFrom lo m = true) (hlo : lo ≤ a)
    (ha : a < addressLimit) : Mem.wfFrom lo (m.put a b) = true := by
  induction m generalizing lo with
  | nil =>
    by_cases hb : b = Mem.unlisted
    · simp [Mem.put, hb, Mem.wfFrom]
    · simp [Mem.put, hb, Mem.wfFrom, hlo, ha]
  | cons c rest ih =>
    obtain ⟨k, d⟩ := c
    rw [Mem_wfFrom_cons] at h
    obtain ⟨h1, h2, h3, h4⟩ := h
    unfold Mem.put
    by_cases hak : a < k
    · by_cases hb : b = Mem.unlisted
      · simp [hak, hb, Mem_wfFrom_cons, h1, h2, h3, h4]
      · have : Mem.wfFrom (a + 1) ((k, d) :: rest) = true := by
          rw [Mem_wfFrom_cons]; exact ⟨by omega, h2, h3, h4⟩
        simp only [hak, hb, if_true, if_false]
        rw [Mem_wfFrom_cons]
        exact ⟨hlo, ha, hb, this⟩
    · by_cases he : a = k
      · by_cases hb : b = Mem.unlisted
        · simp only [he, hb, if_true, if_false, lt_irrefl]
          exact Mem_wfFrom_mono h4 (by omega)
        · simp only [he, hb, if_true, if_false, lt_irrefl]
          rw [Mem_wfFrom_cons]
          exact ⟨by omega, by omega, hb, h4⟩
      · simp only [hak, he, if_false]
        rw [Mem_wfFrom_cons]
        exact ⟨h1, h2, h3, ih h4 (by omega)⟩

/-- Every write inside the address space keeps the canonical form. -/
theorem Mem_put_wf {m : Mem} {a : Nat} {b : Byte} (h : m.wf = true) (ha : a < addressLimit) : (m.put a b).wf = true :=
  Mem_put_wfFrom h (Nat.zero_le a) ha

theorem Mem_byteAt_put_same_from {lo a : Nat} {m : Mem} {b : Byte} (h : Mem.wfFrom lo m = true) :
    (m.put a b).byteAt a = b := by
  induction m generalizing lo with
  | nil => by_cases hb : b = Mem.unlisted <;> simp [Mem.put, hb, Mem.byteAt]
  | cons c rest ih =>
    obtain ⟨k, d⟩ := c
    rw [Mem_wfFrom_cons] at h
    obtain ⟨h1, h2, h3, h4⟩ := h
    unfold Mem.put
    by_cases hak : a < k
    · by_cases hb : b = Mem.unlisted
      · have hr : Mem.byteAt rest a = Mem.unlisted := Mem_byteAt_below h4 (by omega)
        have hk : k ≠ a := by omega
        simp [hak, hb, Mem.byteAt, hk, hr]
      · simp [hak, hb, Mem.byteAt]
    · by_cases he : a = k
      · subst he
        by_cases hb : b = Mem.unlisted
        · simp [hb, Mem_byteAt_below h4 (Nat.lt_succ_self a)]
        · simp [hb, Mem.byteAt]
      · have hk : k ≠ a := fun e => he e.symm
        simp [hak, he, Mem.byteAt, hk, ih h4]

/-- Read after write to the same address. -/
theorem Mem_byteAt_put_same {m : Mem} {a : Nat} {b : Byte} (h : m.wf = true) : (m.put a b).byteAt a = b :=
  Mem_byteAt_put_same_from h

/-- A write leaves every other byte alone, whatever the form of the memory. -/
theorem Mem_byteAt_put_other {m : Mem} {a x : Nat} {b : Byte} (hx : x ≠ a) : (m.put a b).byteAt x = m.byteAt x := by
  induction m with
  | nil =>
    by_cases hb : b = Mem.unlisted
    · simp [Mem.put, hb]
    · simp [Mem.put, hb, Mem.byteAt, hx.symm]
  | cons c rest ih =>
    obtain ⟨k, d⟩ := c
    unfold Mem.put
    by_cases hak : a < k
    · by_cases hb : b = Mem.unlisted
      · simp [hak, hb]
      · simp [hak, hb, Mem.byteAt, hx.symm]
    · by_cases he : a = k
      · subst he
        by_cases hb : b = Mem.unlisted
        · simp [hb, Mem.byteAt, hx.symm]
        · simp [hb, Mem.byteAt, hx.symm]
      · simp only [hak, he, if_false, Mem.byteAt]
        rw [ih]

theorem Mem_ext_from {lo : Nat} {m n : Mem} (hm : Mem.wfFrom lo m = true) (hn : Mem.wfFrom lo n = true)
    (h : ∀ a, m.byteAt a = n.byteAt a) : m = n := by
  induction m generalizing n lo with
  | nil =>
    cases n with
    | nil => rfl
    | cons c rest =>
      obtain ⟨k, b⟩ := c
      rw [Mem_wfFrom_cons] at hn
      have := h k
      simp [Mem.byteAt] at this
      exact absurd this.symm hn.2.2.1
  | cons c rest ih =>
    obtain ⟨k, b⟩ := c
    cases n with
    | nil =>
      rw [Mem_wfFrom_cons] at hm
      have := h k
      simp [Mem.byteAt] at this
      exact absurd this hm.2.2.1
    | cons d rest' =>
      obtain ⟨k', b'⟩ := d
      rw [Mem_wfFrom_cons] at hm hn
      obtain ⟨hm1, hm2, hm3, hm4⟩ := hm
      obtain ⟨hn1, hn2, hn3, hn4⟩ := hn
      have hkk : k = k' := by
        rcases Nat.lt_trichotomy k k' with hlt | heq | hgt
        · have := h k
          have hne : k' ≠ k := by omega
          simp only [Mem.byteAt, if_true, hne, if_false] at this
          rw [Mem_byteAt_below hn4 (by omega)] at this
          exact absurd this hm3
        · exact heq
        · have := h k'
          have hne : k ≠ k' := by omega
          simp only [Mem.byteAt, if_true, hne, if_false] at this
          rw [Mem_byteAt_below hm4 (by omega)] at this
          exact absurd this.symm hn3
      subst hkk
      have hb : b = b' := by simpa [Mem.byteAt] using h k
      subst hb
      have hrest : rest = rest' := by
        apply ih hm4 hn4
        intro a
        by_cases ha : k = a
        · subst ha
          rw [Mem_byteAt_below hm4 (Nat.lt_succ_self k), Mem_byteAt_below hn4 (Nat.lt_succ_self k)]
        · simpa [Mem.byteAt, ha] using h a
      rw [hrest]

/-- Two canonical memories that read alike everywhere are equal data. -/
theorem Mem_ext {m n : Mem} (hm : m.wf = true) (hn : n.wf = true) (h : ∀ a, m.byteAt a = n.byteAt a) : m = n :=
  Mem_ext_from hm hn h

/-! ### 16-bit accesses -/

/-- A 16-bit read inside the address space answers the two bytes, the lower address in the low byte. -/
theorem memRead16_eq {m : Mem} {a : Nat} (h : a + 1 < addressLimit) :
    memRead16 m a = .next (m.byteAt (a + 1) ++ m.byteAt a : BitVec 16) := by
  have h0 : a < addressLimit := by omega
  simp [memRead16, readByte, h, h0]

/-- A 16-bit write inside the address space writes the two bytes, the low byte at the lower address. -/
theorem memWrite16_eq {m : Mem} {a : Nat} {v : Half} (h : a + 1 < addressLimit) :
    memWrite16 m a v = .next ((m.put a (v.extractLsb' 0 8)).put (a + 1) (v.extractLsb' 8 8)) := by
  have h0 : a < addressLimit := by omega
  simp [memWrite16, writeByte, h, h0]

/-- What a 16-bit write that answers a next memory leaves alone, whatever the form of the memory. -/
theorem memWrite16_frame {m m' : Mem} {a : Nat} {v : Half} (h : memWrite16 m a v = .next m') :
    a + 1 < addressLimit ∧ ∀ x, x ≠ a → x ≠ a + 1 → m'.byteAt x = m.byteAt x := by
  unfold memWrite16 at h
  rw [andThen_eq_next] at h
  obtain ⟨m1, h1, h2⟩ := h
  unfold writeByte at h1 h2
  split at h1 <;> simp at h1
  split at h2 <;> simp at h2
  rename_i ha1
  subst h1 h2
  exact ⟨ha1, fun x hx hx1 => by rw [Mem_byteAt_put_other hx1, Mem_byteAt_put_other hx]⟩

/-- Everything a 16-bit write to a canonical memory does, if it answers a next memory. -/
theorem memWrite16_spec {m m' : Mem} {a : Nat} {v : Half} (hm : m.wf = true) (h : memWrite16 m a v = .next m') :
    a + 1 < addressLimit ∧ m'.wf = true ∧ m'.byteAt a = v.extractLsb' 0 8 ∧ m'.byteAt (a + 1) = v.extractLsb' 8 8 ∧
      ∀ x, x ≠ a → x ≠ a + 1 → m'.byteAt x = m.byteAt x := by
  obtain ⟨ha, hf⟩ := memWrite16_frame h
  rw [memWrite16_eq ha] at h
  simp only [Host.Outcome.next.injEq] at h
  subst h
  have hw : (m.put a (v.extractLsb' 0 8)).wf = true := Mem_put_wf hm (by omega)
  refine ⟨ha, Mem_put_wf hw ha, ?_, Mem_byteAt_put_same hw, hf⟩
  rw [Mem_byteAt_put_other (by omega), Mem_byteAt_put_same hm]

/-- A memory access is never refused. -/
theorem memRead16_not_refused {m : Mem} {a : Nat} {r : Refusal} : memRead16 m a ≠ .refused r := by
  unfold memRead16 readByte
  by_cases h : a < addressLimit <;> by_cases h' : a + 1 < addressLimit <;> simp [h, h', andThen]

/-- A memory access is never refused. -/
theorem memWrite16_not_refused {m : Mem} {a : Nat} {v : Half} {r : Refusal} : memWrite16 m a v ≠ .refused r := by
  unfold memWrite16 writeByte
  by_cases h : a < addressLimit <;> by_cases h' : a + 1 < addressLimit <;> simp [h, h', andThen]

/-- A store by the host writes one byte and keeps the canonical form. -/
theorem hostStore_eq_next {s t : State} {a : Nat} {b : Byte} (h : hostStore a b s = .next t) :
    a < addressLimit ∧ t = { s with mem := Mem.put s.mem a b } ∧ (Mem.wf s.mem = true → Mem.wf t.mem = true) := by
  unfold hostStore writeByte at h
  split at h
  · rename_i ha
    cases h
    exact ⟨ha, rfl, fun hw => Mem_put_wf hw ha⟩
  · cases h

/-- The two bytes of a written element read back as the element. -/
theorem half_of_bytes (v : Half) : (v.extractLsb' 8 8 ++ v.extractLsb' 0 8 : BitVec 16) = v := by
  apply BitVec.eq_of_getLsbD_eq
  intro i hi
  rw [BitVec.getLsbD_append]
  by_cases h : i < 8
  · simp [h]
  · simp only [h, BitVec.getLsbD_extractLsb', decide_false]
    rw [show 8 + (i - 8) = i by omega]
    simp
    omega

/-! ### Ranges -/

theorem rangeAll_iff {p : Nat → Bool} {base len : Nat} :
    rangeAll p base len = true ↔ ∀ a, base ≤ a → a < base + len → p a = true := by
  simp only [rangeAll, List.all_eq_true, List.mem_range]
  constructor
  · intro h a h1 h2
    have := h (a - base) (by omega)
    rwa [Nat.add_sub_cancel' h1] at this
  · intro h k hk
    exact h _ (by omega) (by omega)

theorem rangeAny_eq_false_iff {p : Nat → Bool} {base len : Nat} :
    rangeAny p base len = false ↔ ∀ a, base ≤ a → a < base + len → p a = false := by
  simp only [rangeAny, List.any_eq_false, List.mem_range]
  constructor
  · intro h a h1 h2
    have := h (a - base) (by omega)
    rw [Nat.add_sub_cancel' h1] at this
    simpa using this
  · intro h k hk
    simp [h (base + k) (by omega) (by omega)]

theorem rangesMeet_eq_false_iff {a b len : Nat} : rangesMeet a b len = false ↔ b + len ≤ a ∨ a + len ≤ b := by
  simp [rangesMeet]
  omega

end Sys2Proof.Laws
end

