-- ==== Sys2Proof/Laws/PerInstr.lean ====
section
/-! SUPPORT. Statements made of every instruction as syntax, one lemma per constructor.
`EncodedLength`: the words of a command are as many as R62 says.
`HeaderReservedZero`: bits 31:16 of the header are zero (R61). -/

namespace Sys2Proof.Laws

/-- R62: the encoding of the command has its length `L` in words. -/
def EncodedLength.Statement (i : Instr) : Prop := (encode i).length = i.words

theorem EncodedLength.init (sel : Word) : EncodedLength.Statement (.init sel) := rfl
theorem EncodedLength.proc (out inp count : Word) : EncodedLength.Statement (.proc out inp count) := rfl
theorem EncodedLength.rstate : EncodedLength.Statement .rstate := rfl
theorem EncodedLength.rdreg (r : RegName) : EncodedLength.Statement (.rdreg r) := rfl
theorem EncodedLength.rdcSet (coeff : Word) : EncodedLength.Statement (.rdcSet coeff) := rfl
theorem EncodedLength.rdcStep (input : Word) : EncodedLength.Statement (.rdcStep input) := rfl

/-- R61: the first word of the command has zero reserved bits. -/
def HeaderReservedZero.Statement (i : Instr) : Prop := ∃ h rest, encode i = h :: rest ∧ reservedField h = 0

theorem HeaderReservedZero.init (sel : Word) : HeaderReservedZero.Statement (.init sel) :=
  ⟨_, _, rfl, by decide⟩
theorem HeaderReservedZero.proc (out inp count : Word) : HeaderReservedZero.Statement (.proc out inp count) :=
  ⟨_, _, rfl, by decide⟩
theorem HeaderReservedZero.rstate : HeaderReservedZero.Statement .rstate := ⟨_, _, rfl, by decide⟩
theorem HeaderReservedZero.rdreg (r : RegName) : HeaderReservedZero.Statement (.rdreg r) :=
  ⟨_, _, rfl, by cases r <;> decide⟩
theorem HeaderReservedZero.rdcSet (coeff : Word) : HeaderReservedZero.Statement (.rdcSet coeff) :=
  ⟨_, _, rfl, by decide⟩
theorem HeaderReservedZero.rdcStep (input : Word) : HeaderReservedZero.Statement (.rdcStep input) :=
  ⟨_, _, rfl, by decide⟩

end Sys2Proof.Laws
end

