-- ==== Sys2Proof/Laws/State.lean ====
section
/-! SUPPORT. Small lemmas of the updates of State, one per field, and of the two operations that end a command. -/

namespace Sys2Proof.Laws

open Sys2Proof.Machine

variable (s : State) (v : Wide) (ws : List Word) (nbits w : Nat)

/-! ### pushResult -/

@[simp] theorem pushResult_filter : (pushResult v s).filter = s.filter := rfl
@[simp] theorem pushResult_config : (pushResult v s).config = s.config := rfl
@[simp] theorem pushResult_mode : (pushResult v s).mode = s.mode := rfl
@[simp] theorem pushResult_cause : (pushResult v s).cause = s.cause := rfl
@[simp] theorem pushResult_pc : (pushResult v s).pc = s.pc := rfl
@[simp] theorem pushResult_results : (pushResult v s).results = s.results ++ [v] := rfl
@[simp] theorem pushResult_refdc : (pushResult v s).refdc = s.refdc := rfl
@[simp] theorem pushResult_stream : (pushResult v s).stream = s.stream := rfl
@[simp] theorem pushResult_mem : (pushResult v s).mem = s.mem := rfl
@[simp] theorem pushResult_regions : (pushResult v s).regions = s.regions := rfl

/-! ### deliverWords -/

@[simp] theorem deliverWords_filter : (deliverWords ws s).filter = s.filter := rfl
@[simp] theorem deliverWords_config : (deliverWords ws s).config = s.config := rfl
@[simp] theorem deliverWords_mode : (deliverWords ws s).mode = s.mode := rfl
@[simp] theorem deliverWords_cause : (deliverWords ws s).cause = s.cause := rfl
@[simp] theorem deliverWords_pc : (deliverWords ws s).pc = s.pc := rfl
@[simp] theorem deliverWords_results : (deliverWords ws s).results = s.results := rfl
@[simp] theorem deliverWords_refdc : (deliverWords ws s).refdc = s.refdc := rfl
@[simp] theorem deliverWords_stream : (deliverWords ws s).stream = s.stream ++ ws := rfl
@[simp] theorem deliverWords_mem : (deliverWords ws s).mem = s.mem := rfl
@[simp] theorem deliverWords_regions : (deliverWords ws s).regions = s.regions := rfl

/-! ### resetInput -/

@[simp] theorem resetInput_filter : (resetInput s).filter = FilterState.zero := rfl
@[simp] theorem resetInput_config : (resetInput s).config = none := rfl
@[simp] theorem resetInput_mode : (resetInput s).mode = .uninitialized := rfl
@[simp] theorem resetInput_cause : (resetInput s).cause = none := rfl
@[simp] theorem resetInput_pc : (resetInput s).pc = 0 := rfl
@[simp] theorem resetInput_results : (resetInput s).results = [] := rfl
@[simp] theorem resetInput_refdc : (resetInput s).refdc = s.refdc.map fun _ => RefBlocker.reset := rfl
@[simp] theorem resetInput_stream : (resetInput s).stream = [] := rfl
@[simp] theorem resetInput_mem : (resetInput s).mem = s.mem := rfl
@[simp] theorem resetInput_regions : (resetInput s).regions = s.regions := rfl

/-! ### withFetchWord -/

@[simp] theorem withFetchWord_filter : (s.withFetchWord nbits w).filter = s.filter := rfl
@[simp] theorem withFetchWord_config : (s.withFetchWord nbits w).config = s.config := rfl
@[simp] theorem withFetchWord_mode : (s.withFetchWord nbits w).mode = s.mode := rfl
@[simp] theorem withFetchWord_cause : (s.withFetchWord nbits w).cause = s.cause := rfl
@[simp] theorem withFetchWord_pc : (s.withFetchWord nbits w).pc = s.pc := rfl
@[simp] theorem withFetchWord_results : (s.withFetchWord nbits w).results = s.results := rfl
@[simp] theorem withFetchWord_refdc : (s.withFetchWord nbits w).refdc = s.refdc := rfl
@[simp] theorem withFetchWord_stream :
    (s.withFetchWord nbits w).stream = placeWords s.pc (tableWords nbits w) s.stream := rfl
@[simp] theorem withFetchWord_mem : (s.withFetchWord nbits w).mem = s.mem := rfl
@[simp] theorem withFetchWord_regions : (s.withFetchWord nbits w).regions = s.regions := rfl

/-! ### Fault entry and completion: the only two ways a command ends in a next state -/

theorem raise_eq (c : Cause) : raise c s = .next { s with cause := some c } := rfl

theorem complete_eq (n : Nat) : complete n s = .next { s with pc := s.pc + n } := rfl

/-! ### The active configuration and the placed words -/

/-- There is an active configuration exactly when the registers are written and the mode is not Uninitialized. -/
theorem activeConfig_eq_some_iff (c : FilterConfiguration) :
    activeConfig s = some c ↔ s.mode ≠ .uninitialized ∧ s.config = some c := by
  unfold activeConfig
  cases s.mode <;> simp

theorem activeConfig_uninitialized (h : s.mode = .uninitialized) : activeConfig s = none := by
  simp [activeConfig, h]

/-- What `fetch` reads after words have been placed at `pc`. -/
theorem drop_placeWords (pc : Nat) (new old : List Word) :
    (placeWords pc new old).drop pc = new ++ old.drop (pc + new.length) := by
  have h : (old.take pc ++ List.replicate (pc - old.length) 0).length = pc := by simp; omega
  unfold placeWords
  rw [List.append_assoc, List.drop_append, h, Nat.sub_self, List.drop_zero, List.drop_eq_nil_of_le h.le, List.nil_append]

end Sys2Proof.Laws
end

