-- ==== Sys2Proof/Laws/Pipeline.lean ====
section
/-! SUPPORT. The micro-operations and the parts of `PROC`: for each one lemma that says everything it can answer. -/

namespace Sys2Proof.Laws

open Sys2Proof.Machine

/-! ### DcbStep -/

/-- Everything `DcbStep` does when it answers. -/
theorem dcbStep_eq_next {raw n : Nat} {acc a o : Wide} :
    dcbStep raw n acc = .next (a, o) ↔
      raw ≤ maxSample ∧ fitsWide (dcbY raw acc) = true ∧ fitsWide (dcbAcc raw n acc) = true ∧
        a = wide (dcbAcc raw n acc) ∧ o = wide (dcbOut raw acc) := by
  unfold dcbStep
  by_cases h0 : maxSample < raw
  · simp [h0]
  · by_cases h1 : (fitsWide (dcbY raw acc) && fitsWide (dcbAcc raw n acc)) = true
    · rw [if_neg h0, if_pos h1]
      rw [Bool.and_eq_true] at h1
      simp only [Host.Outcome.next.injEq, Prod.mk.injEq, h1, not_lt.mp h0, true_and]
      exact ⟨fun h => ⟨h.1.symm, h.2.symm⟩, fun h => ⟨h.1.symm, h.2.symm⟩⟩
    · rw [if_neg h0, if_neg h1]
      rw [Bool.and_eq_true] at h1
      simp only [reduceCtorEq, false_iff]
      rintro ⟨-, h2, h3, -⟩
      exact h1 ⟨h2, h3⟩

theorem dcbStep_no_fault {raw n : Nat} {acc : Wide} {r : Fault} : dcbStep raw n acc ≠ .fault r := by
  unfold dcbStep
  split
  · simp
  · split <;> simp

/-! ### BqStep -/

/-- Everything `BqStep` does when it answers. -/
theorem bqStep_eq_next {c : FilterConfiguration} {f f' : FilterState} {x : Wide} {y : Int} :
    bqStep c f x = .next (f', y) ↔ bqFits c f x = true ∧ f' = bqShift c f x ∧ y = bqY c f x := by
  unfold bqStep
  by_cases h : bqFits c f x = true
  · rw [if_pos h]
    simp only [Host.Outcome.next.injEq, Prod.mk.injEq, h, true_and]
    exact ⟨fun e => ⟨e.1.symm, e.2.symm⟩, fun e => ⟨e.1.symm, e.2.symm⟩⟩
  · simp [h]

theorem bqStep_no_fault {c : FilterConfiguration} {f : FilterState} {x : Wide} {r : Fault} :
    bqStep c f x ≠ .fault r := by
  unfold bqStep
  split <;> simp

theorem bqFits_iff {c : FilterConfiguration} {f : FilterState} {x : Wide} :
    bqFits c f x = true ↔
      fitsWide (bqDiff f) = true ∧ fitsWide (c.cb0.toInt * x.toInt) = true ∧
      fitsWide (c.cb1.toInt * bqDiff f) = true ∧ fitsWide (c.cb2.toInt * f.x2.toInt) = true ∧
      fitsWide (c.ca2.toInt * f.y2.toInt) = true ∧ fitsWide (bqSum c f x) = true ∧ fitsWide (bqY c f x) = true := by
  simp [bqFits, and_assoc]

/-! ### Sat16 and SampleStep -/

/-- The clamp stays inside the symmetric bounds. -/
theorem sat16_bounds (v : Int) : -32767 ≤ sat16 v ∧ sat16 v ≤ 32767 :=
  ⟨(clamp_spec (by decide)).1, (clamp_spec (by decide)).2.1⟩

/-- The stored pattern of a clamped value reads back as the value. -/
theorem outElement_sat16_toInt (v : Int) : (outElement (sat16 v)).toInt = sat16 v := by
  have h := sat16_bounds v
  simp only [outElement, BitVec.toInt_ofInt]
  have := Int.bmod_eq_of_le (n := sat16 v) (m := 2 ^ 16) (by omega) (by omega)
  exact_mod_cast this

/-- Everything `SampleStep` does when it answers. -/
theorem sampleStep_eq_next {c : FilterConfiguration} {f f' : FilterState} {raw : Nat} {o : Half} :
    sampleStep c f raw = .next (f', o) ↔
      ∃ a d y, dcbStep raw leakShift f.acc = .next (a, d) ∧ bqStep c { f with acc := a } d = .next (f', y) ∧
        o = outElement (sat16 y) := by
  unfold sampleStep
  constructor
  · intro h
    rw [andThen_eq_next] at h
    obtain ⟨⟨a, d⟩, h1, h2⟩ := h
    rw [andThen_eq_next] at h2
    obtain ⟨⟨g, y⟩, h3, h4⟩ := h2
    simp only [Host.Outcome.next.injEq, Prod.mk.injEq] at h4
    obtain ⟨rfl, rfl⟩ := h4
    exact ⟨a, d, y, h1, h3, rfl⟩
  · rintro ⟨a, d, y, h1, h2, rfl⟩
    simp [h1, h2]

theorem sampleStep_no_fault {c : FilterConfiguration} {f : FilterState} {raw : Nat} {r : Fault} :
    sampleStep c f raw ≠ .fault r := by
  intro h
  unfold sampleStep at h
  rw [andThen_eq_fault] at h
  rcases h with h | ⟨d, -, h⟩
  · exact dcbStep_no_fault h
  · rw [andThen_eq_fault] at h
    rcases h with h | ⟨b, -, h⟩
    · exact bqStep_no_fault h
    · simp at h

/-- The names under which a sample step can be refused. -/
theorem sampleStep_eq_refused {c : FilterConfiguration} {f : FilterState} {raw : Nat} {r : Refusal}
    (h : sampleStep c f raw = .refused r) : r = .inputOutOfRange ∨ r = .wideOverflow := by
  unfold sampleStep at h
  rw [andThen_eq_refused] at h
  rcases h with h | ⟨d, -, h⟩
  · unfold dcbStep at h
    split at h
    · cases h; exact .inl rfl
    · split at h <;> cases h
      exact .inr rfl
  · rw [andThen_eq_refused] at h
    rcases h with h | ⟨b, -, h⟩
    · unfold bqStep at h
      split at h <;> cases h
      exact .inr rfl
    · cases h

/-! ### PROC -/

theorem procLoop_zero (c : FilterConfiguration) (out inp i : Nat) (f : FilterState) (m : Mem) :
    procLoop c out inp 0 i f m = .next (f, m) := rfl

theorem procLoop_succ (c : FilterConfiguration) (out inp n i : Nat) (f : FilterState) (m : Mem) :
    procLoop c out inp (n + 1) i f m =
      andThen (memRead16 m (elemAddr inp i)) fun raw =>
      andThen (sampleStep c f raw.toNat) fun r =>
      andThen (memWrite16 m (elemAddr out i) r.2) fun m1 =>
      procLoop c out inp n (i + 1) r.1 m1 := rfl

/-- One turn of the loop that answers: the element read, the sample step and the element written. -/
theorem procLoop_succ_eq_next {c : FilterConfiguration} {out inp n i : Nat} {f : FilterState} {m : Mem}
    {q : FilterState × Mem} :
    procLoop c out inp (n + 1) i f m = .next q ↔
      ∃ raw r m1, memRead16 m (elemAddr inp i) = .next raw ∧ sampleStep c f raw.toNat = .next r ∧
        memWrite16 m (elemAddr out i) r.2 = .next m1 ∧ procLoop c out inp n (i + 1) r.1 m1 = .next q := by
  rw [procLoop_succ]
  constructor
  · intro h
    rw [andThen_eq_next] at h
    obtain ⟨raw, h1, h⟩ := h
    rw [andThen_eq_next] at h
    obtain ⟨r, h2, h⟩ := h
    rw [andThen_eq_next] at h
    obtain ⟨m1, h3, h4⟩ := h
    exact ⟨raw, r, m1, h1, h2, h3, h4⟩
  · rintro ⟨raw, r, m1, h1, h2, h3, h4⟩
    simp [h1, h2, h3, h4]

/-- The names under which the loop can be refused: those of a sample step. -/
theorem procLoop_eq_refused {c : FilterConfiguration} {out inp n i : Nat} {f : FilterState} {m : Mem} {r : Refusal}
    (h : procLoop c out inp n i f m = .refused r) : r = .inputOutOfRange ∨ r = .wideOverflow := by
  induction n generalizing i f m with
  | zero => cases h
  | succ n ih =>
    rw [procLoop_succ] at h
    rw [andThen_eq_refused] at h
    rcases h with h | ⟨raw, -, h⟩
    · exact absurd h memRead16_not_refused
    · rw [andThen_eq_refused] at h
      rcases h with h | ⟨q, -, h⟩
      · exact sampleStep_eq_refused h
      · rw [andThen_eq_refused] at h
        rcases h with h | ⟨m1, -, h⟩
        · exact absurd h memWrite16_not_refused
        · exact ih h

/-- When the buffer checks pass. -/
theorem bufferFault_eq_none {map : List Region} {out inp n : Nat} (hn : 0 < n) :
    bufferFault map out inp n = none ↔
      out % 2 = 0 ∧ inp % 2 = 0 ∧ out + 2 * n ≤ addressLimit ∧ inp + 2 * n ≤ addressLimit ∧
      (inp + 2 * n ≤ out ∨ out + 2 * n ≤ inp) ∧
      (∀ a, inp ≤ a → a < inp + 2 * n → memValid map .read a = true) ∧
      (∀ a, out ≤ a → a < out + 2 * n → memValid map .write a = true) := by
  rw [← rangesMeet_eq_false_iff, ← rangeAll_iff, ← rangeAll_iff]
  unfold bufferFault
  have h0 : n ≠ 0 := by omega
  simp only [h0, if_false]
  by_cases h1 : out % 2 ≠ 0 ∨ inp % 2 ≠ 0
  · simp only [h1, if_true]
    constructor
    · simp
    · rintro ⟨a, b, -⟩; omega
  · by_cases h2 : addressLimit < out + 2 * n ∨ addressLimit < inp + 2 * n
    · simp only [h1, h2, if_true, if_false]
      constructor
      · simp
      · rintro ⟨-, -, a, b, -⟩; omega
    · have h1' : out % 2 = 0 ∧ inp % 2 = 0 := by omega
      have h2' : out + 2 * n ≤ addressLimit ∧ inp + 2 * n ≤ addressLimit := by omega
      cases h3 : rangesMeet out inp (2 * n) <;>
        cases h4 : rangeAll (memValid map .read) inp (2 * n) <;>
          cases h5 : rangeAll (memValid map .write) out (2 * n) <;> simp [h2, h1', h2']

theorem bufferFault_zero (map : List Region) (out inp : Nat) : bufferFault map out inp 0 = none := by
  simp [bufferFault]

theorem touchesDevice_eq_false {map : List Region} {out inp n : Nat} :
    touchesDevice map out inp n = false ↔
      (∀ a, inp ≤ a → a < inp + 2 * n → isDevice map a = false) ∧
      (∀ a, out ≤ a → a < out + 2 * n → isDevice map a = false) := by
  simp only [touchesDevice, Bool.or_eq_false_iff, rangeAny_eq_false_iff]

/-- Everything `PROC` does when it answers a next state: a fault entry, or the loop. -/
theorem execProc_eq_next {out inp count : Word} {s t : State} (h : execProc out inp count s = .next t) :
    (∃ c, t = { s with cause := some c }) ∨
    ∃ c r, activeConfig s = some c ∧
      bufferFault s.regions (zext32 out) (zext32 inp) (sampleCount count) = none ∧
      touchesDevice s.regions (zext32 out) (zext32 inp) (sampleCount count) = false ∧
      procLoop c (zext32 out) (zext32 inp) (sampleCount count) 0 s.filter s.mem = .next r ∧
      t = { s with filter := r.1, mem := r.2, mode := .running, pc := s.pc + 4 } := by
  unfold execProc at h
  split at h
  · simp only [raise_eq, Host.Outcome.next.injEq] at h
    exact .inl ⟨_, h.symm⟩
  · rename_i c hc
    unfold procBuffers at h
    split at h
    · simp only [raise_eq, Host.Outcome.next.injEq] at h
      exact .inl ⟨_, h.symm⟩
    · rename_i hb
      split at h
      · simp at h
      · rename_i hd
        rw [andThen_eq_next] at h
        obtain ⟨r, h1, h2⟩ := h
        simp only [complete_eq, Host.Outcome.next.injEq] at h2
        exact .inr ⟨c, r, hc, hb, by simpa using hd, h1, h2.symm⟩

end Sys2Proof.Laws
end

