-- ==== Sys2Proof/Laws/Step.lean ====
section
/-! SUPPORT. What a command and a step can do: the inversion lemmas whole-machine claims go through. -/

namespace Sys2Proof.Laws

open Sys2Proof.Machine

theorem execInit_eq (sel : Word) (s : State) :
    execInit sel s =
      .next { s with config := some (configOf (resolve (sext32 sel))), mode := .configured, pc := s.pc + 2 } := rfl

theorem execRstate_eq (s : State) : execRstate s = .next { s with filter := FilterState.zero, pc := s.pc + 1 } := rfl

/-- Everything `RDREG` can do: it always answers a next state. -/
theorem execRdreg_cases (r : RegName) (s : State) :
    (∃ c, readReg s r = .error c ∧ execRdreg r s = .next { s with cause := some c }) ∨
    (∃ v, readReg s r = .ok v ∧ execRdreg r s = .next { s with results := s.results ++ [v], pc := s.pc + 1 }) := by
  unfold execRdreg
  cases readReg s r with
  | error c => exact .inl ⟨c, rfl, rfl⟩
  | ok v => exact .inr ⟨v, rfl, rfl⟩

/-- Everything `RDC.SET` can do: it always answers a next state. -/
theorem execRdcSet_cases (coeff : Word) (s : State) :
    (s.refdc = none ∧ execRdcSet coeff s = .next { s with cause := some .illegalCommand }) ∨
    (∃ b, s.refdc = some b ∧ execRdcSet coeff s =
      .next { s with refdc := some { b with rcoef := some (wide (clamp (sext32 coeff) 3 8000)) }, pc := s.pc + 2 }) := by
  unfold execRdcSet
  cases h : s.refdc with
  | none => exact .inl ⟨rfl, by simp [raise_eq, h]⟩
  | some b => exact .inr ⟨b, rfl, by simp [complete_eq]⟩

/-- Everything `RDC.STEP` does when it answers a next state. -/
theorem execRdcStep_eq_next {input : Word} {s t : State} (h : execRdcStep input s = .next t) :
    (∃ c, t = { s with cause := some c }) ∨
    ∃ b coef, s.refdc = some b ∧ b.rcoef = some coef ∧
      fitsWide (rdcProduct coef b.rout) = true ∧ fitsWide (rdcAcc coef b.racc b.rout) = true ∧
      fitsWide (rdcOut input (rdcAcc coef b.racc b.rout)) = true ∧
      t = { s with
              refdc := some { b with racc := wide (rdcAcc coef b.racc b.rout)
                                     rout := wide (rdcOut input (rdcAcc coef b.racc b.rout)) }
              results := s.results ++ [wide (rdcOut input (rdcAcc coef b.racc b.rout))]
              pc := s.pc + 2 } := by
  unfold execRdcStep at h
  split at h
  · simp only [raise_eq, Host.Outcome.next.injEq] at h
    exact .inl ⟨_, h.symm⟩
  · rename_i b hb
    split at h
    · simp only [raise_eq, Host.Outcome.next.injEq] at h
      exact .inl ⟨_, h.symm⟩
    · rename_i coef hc
      simp only at h
      split at h
      · rename_i hf
        simp only [Bool.and_eq_true] at hf
        simp only [complete_eq, pushResult, Host.Outcome.next.injEq] at h
        exact .inr ⟨b, coef, hb, hc, hf.1.1, hf.1.2, hf.2, h.symm⟩
      · simp at h

/-- Everything a step can do when it answers a next state: nothing (halted, or waiting), a fault entry for an illegal
header, or one whole command. -/
theorem step_eq_next {s t : State} (h : step s = .next t) :
    t = s ∨
    (s.cause = none ∧ ∃ why, decode s.refdc.isSome (fetch s) = .illegal why ∧
      t = { s with cause := some .illegalCommand }) ∨
    (s.cause = none ∧ ∃ i, decode s.refdc.isSome (fetch s) = .command i ∧ exec i s = .next t) := by
  unfold step at h
  split at h
  · simp only [Host.Outcome.next.injEq] at h
    exact .inl h.symm
  · rename_i hc
    split at h
    · simp only [Host.Outcome.next.injEq] at h
      exact .inl h.symm
    · rename_i why hd
      simp only [raise_eq, Host.Outcome.next.injEq] at h
      exact .inr (.inl ⟨hc, why, hd, h.symm⟩)
    · rename_i i hd
      exact .inr (.inr ⟨hc, i, hd, h⟩)

/-- A decoded command's words are all delivered: `pc` plus its length is inside the stream (R163). -/
theorem words_le_of_decode {refdc : Bool} {ws : List Word} {i : Instr} (h : decode refdc ws = .command i) :
    i.words ≤ ws.length := by
  rw [decode_eq_command] at h
  obtain ⟨hd, rest, op, rfl, -, ha⟩ := h
  unfold assemble at ha
  split at ha <;> simp at ha <;> subst ha <;> simp [Instr.words]

end Sys2Proof.Laws
end

