-- ==== Sys2Proof/Tests/Slice0.lean ====
section
/-! SUPPORT. The model's own tests: ill-formed commands are refused, example words decode, one step of each command
gives the values of spec/95_test_vectors.md, and each obligation with hypotheses has a witness that meets them. -/

namespace Sys2Proof.Tests

open Sys2Proof.Machine Sys2Proof.Safety

/-! ### States the tests start from -/

/-- After `INIT 3` from reset. -/
def configured : State := { State.reset with config := some profile3, mode := .configured }

/-- `configured` with the bytes of V-M1 in the input buffer of program P1. -/
def primed : State :=
  { configured with
    mem := [(0x20001001, 0x08), (0x20001002, 0x01), (0x20001003, 0x08), (0x20001004, 0xFF), (0x20001005, 0x07),
      (0x20001006, 0xFF), (0x20001007, 0x0F)] }

/-- The data registers after V-P1. -/
def filterP1 : FilterState := { acc := 8384272, x1 := 32752, x2 := -17, y1 := 32481, y2 := -19 }

/-- The state before V-R1 to V-R8. -/
def running : State := { configured with filter := filterP1, mode := .running }

/-- A build with the reference blocker, RCOEF written. -/
def withRefdc (racc rout : Wide) (rcoef : Option Wide) : State :=
  { State.reset with refdc := some { racc := racc, rcoef := rcoef, rout := rout } }

/-- A halted block. -/
def halted : State := { State.reset with cause := some .illegalCommand }

/-- The state after one step over freshly delivered words. -/
def after (ws : List Word) (s : State) : Option State := nextOf (step (deliverWords ws s))

/-- STATUS and `pc` after one step over freshly delivered words, for the vectors V-F. -/
def statusAndPc (ws : List Word) (s : State) : Option (Word × Nat) := (after ws s).map fun t => (t.status, t.pc)

/-- The name of a refusal. -/
def refusalOf {α : Type} (o : Host.Outcome α Fault Refusal) : Option Refusal :=
  match o with
  | .next _ => none
  | .fault _ => none
  | .refused r => some r

/-- The new entries of the result stream. -/
def pushed (ws : List Word) (s : State) : Option (List Wide) := (after ws s).map fun t => t.results

/-! ### WellFormed refuses what a build does not have -/

theorem test_wellFormed_refuses_racc : WellFormed false (.rdreg .racc) = false := by decide
theorem test_wellFormed_refuses_rcoef : WellFormed false (.rdreg .rcoef) = false := by decide
theorem test_wellFormed_refuses_rout : WellFormed false (.rdreg .rout) = false := by decide
theorem test_wellFormed_refuses_rdcSet : WellFormed false (.rdcSet 3) = false := by decide
theorem test_wellFormed_refuses_rdcStep : WellFormed false (.rdcStep 0) = false := by decide

/-! ### Decoding (vectors V-E) -/

/-- V-E1: OP = 01H, one operand word. -/
theorem test_decode_init : decode false [0b00000000000000000000000000000001, 6] = .command (.init 6) := by decide

/-- V-E2: OP = 02H, three operand words in the order out, in, count. -/
theorem test_decode_proc :
    decode false [0b00000000000000000000000000000010, 10, 20, 30] = .command (.proc 10 20 30) := by decide

/-- V-E3, V-E11: OP = 03H, no operand word. -/
theorem test_decode_rstate : decode false [0b00000000000000000000000000000011, 4] = .command .rstate := by decide

/-- V-E4: OP = 04H with the register number in bits 15:8, for each of the 11 registers of this build. -/
theorem test_decode_rdreg :
    [0x004, 0x104, 0x204, 0x304, 0x404, 0x504, 0x604, 0x704, 0x804, 0x904, 0xA04].map (fun h => decode false [h]) =
    [.acc, .x1, .x2, .y1, .y2, .ca2, .cb0, .cb1, .cb2, .sel, .status].map (fun r => .command (.rdreg r)) := by decide

/-- V-E5: registers 11 to 13 exist only with the reference blocker. -/
theorem test_decode_rdreg_refdc :
    [0xB04, 0xC04, 0xD04].map (fun h => decode true [h]) =
      [.racc, .rcoef, .rout].map (fun r => .command (.rdreg r)) ∧
    [0xB04, 0xC04, 0xD04].map (fun h => decode false [h]) = List.replicate 3 (.illegal .noSuchRegister) := by decide

/-- V-E6: no such register on any build. -/
theorem test_decode_no_such_register :
    [0xE04, 0xFF04].map (fun h => decode true [h]) = List.replicate 2 (.illegal .noSuchRegister) := by decide

/-- V-E7: reserved opcodes, with or without the option. -/
theorem test_decode_reserved_opcode :
    [0x05, 0x0F, 0x12, 0xFF, 0x00].map (fun h => decode true [h, 0, 0, 0]) =
      List.replicate 5 (.illegal .reservedOpcode) := by decide

/-- V-E8: OP = 10H and 11H. -/
theorem test_decode_rdc :
    decode true [0b00000000000000000000000000010000, 5] = .command (.rdcSet 5) ∧
    decode true [0b00000000000000000000000000010001, 5] = .command (.rdcStep 5) ∧
    decode false [0x10] = .illegal .reservedOpcode ∧ decode false [0x11] = .illegal .reservedOpcode := by decide

/-- V-E9: R not zero outside `RDREG`. -/
theorem test_decode_nonzero_r :
    [0x103, 0x102, 0x201].map (fun h => decode false [h]) = List.replicate 3 (.illegal .nonzeroR) := by decide

/-- V-E10: reserved bits. -/
theorem test_decode_reserved_bits :
    [0x80000003, 0x00010004, 0xFFFFFFFF].map (fun h => decode true [h]) =
      List.replicate 3 (.illegal .reservedBits) := by decide

/-- V-F16: a legal header waits for its operand words. -/
theorem test_decode_waits :
    decode false [] = .wait ∧ decode false [1] = .wait ∧ decode false [2, 0x20002000, 0x20001000] = .wait := by decide

/-- The rows of spec/opcode_table.json, with operand words of zeros. -/
theorem test_decodeTableWord :
    decodeTableWord 64 0x1 = some (.init 0) ∧ decodeTableWord 128 0x2 = some (.proc 0 0 0) ∧
    decodeTableWord 32 0x3 = some .rstate ∧ decodeTableWord 32 0x704 = some (.rdreg .cb1) ∧
    decodeTableWord 64 0x10 = some (.rdcSet 0) ∧ decodeTableWord 64 0x11 = some (.rdcStep 0) ∧
    decodeTableWord 64 0xFFFFFFFB00000001 = some (.init 0xFFFFFFFB) ∧
    decodeTableWord 128 0x00000004200010002000200000000002 = some (.proc 0x20002000 0x20001000 4) := by decide

/-- What `withFetchWord` places is what the very next step runs. -/
theorem test_withFetchWord :
    (nextOf (step (State.reset.withFetchWord 32 0x2))).map (fun t => (t.status, t.pc)) = some (0x34, 0) ∧
    (nextOf (step (State.reset.withFetchWord 32 0x1))).map (fun t => (t.status, t.pc)) = some (0x01, 2) := by
  decide +kernel

/-- What an assembler must refuse: a word of 33 bits, a missing operand, a register outside the table, text after a
command without operands. -/
theorem test_assembler_refuses :
    assembleLine true "INIT 4294967296".toList = none ∧ assembleLine true "PROC 1, 2".toList = none ∧
    assembleLine true "RDREG 14".toList = none ∧ assembleLine true "RSTATE 1".toList = none ∧
    assembleLine true "; only a comment".toList = some [] := by decide +kernel

/-! ### One step of each command -/

/-- V-I2c: an unsupported selector loads profile 3 and SEL reads 3. -/
theorem test_init_falls_back :
    (after [0x00000001, 0xFFFFFFFB] State.reset).map (fun t => (t.config, t.mode, t.pc)) =
      some (some ⟨3, 0x00001E3B, 0x00001FBD, 0xFFFFC682, 0x00001E7D⟩, .configured, 2) := by decide +kernel

/-- V-I4: `INIT 3` in mode Running keeps the data registers and goes back to Configured. -/
theorem test_init_keeps_data :
    (after [0x00000001, 0x00000003] running).map (fun t => (t.filter, t.mode)) =
      some (filterP1, .configured) := by decide +kernel

/-- V-P1 with V-M1 and V-M2: registers, output bytes, mode. The byte 00 at 20002000H is unlisted. -/
theorem test_proc_V_P1 :
    (after [0x00000002, 0x20002000, 0x20001000, 0x00000004] primed).map
        (fun t => (t.filter, t.mode, t.pc, t.mem)) =
      some (filterP1, .running, 4, primed.mem ++
        [(0x20002002, 0x0F), (0x20002004, 0xED), (0x20002005, 0xFF), (0x20002006, 0xE1), (0x20002007, 0x7E)]) := by
  decide +kernel

/-- V-P4 and V-P5: the unclamped value is fed back, the element stored is clamped. -/
theorem test_proc_feeds_back_unclamped :
    nextOf (filterRun profile3 filterP1 [0, 4095]) =
      some (⟨7889181, 32880, -34815, 32769, -35016⟩, [BitVec.ofInt 16 (-32767), 32767]) := by decide +kernel

/-- V-R11 and V-R8. -/
theorem test_rstate :
    after [0x00000003] running =
      some { running with filter := ⟨0, 0, 0, 0, 0⟩, stream := [0x00000003], pc := 1 } := by decide +kernel

/-- V-R1, V-R2, V-R5: a data register, a negative one, a coefficient sign-extended. -/
theorem test_rdreg_pushes :
    pushed [0x00000004] running = some [0x00000000007FEF10] ∧
    pushed [0x00000204] running = some [0xFFFFFFFFFFFFFFEF] ∧
    pushed [0x00000704] running = some [0xFFFFFFFFFFFFC682] := by decide +kernel

/-- V-R6, V-R7, V-R10. -/
theorem test_rdreg_sel_and_status :
    pushed [0x00000904] running = some [3] ∧ pushed [0x00000A04] running = some [2] ∧
    pushed [0x00000A04] State.reset = some [0] := by decide +kernel

/-- V-X1, V-X3: both ends of the clamp. -/
theorem test_rdcSet_clamps :
    (after [0x00000010, 0xFFFFFFFF] (withRefdc 0 0 none)).map State.refdc = some (some ⟨0, some 3, 0⟩) ∧
    (after [0x00000010, 0x00002328] (withRefdc 0 0 none)).map State.refdc = some (some ⟨0, some 8000, 0⟩) := by
  decide +kernel

/-- V-X4: cause 3 before the first `RDC.SET`. What a completed step gives depends on RefPre, which is OPEN. -/
theorem test_rdcStep_unwritten :
    statusAndPc [0x00000011, 0x00000064] (withRefdc 0 0 none) = some (0x34, 0) := by decide +kernel

/-! ### Faults (vectors V-F), from the state the vector reaches before the fault -/

/-- V-F1, V-F4, V-F5, V-F6. -/
theorem test_faults_from_reset :
    statusAndPc [0x00000000] State.reset = some (0x14, 0) ∧
    statusAndPc [0x00000101, 0x00000003] State.reset = some (0x14, 0) ∧
    statusAndPc [0x00000010, 0x00000BB8] State.reset = some (0x14, 0) ∧
    statusAndPc [0x00000002, 0x20002000, 0x20001000, 0x00000000] State.reset = some (0x34, 0) ∧
    statusAndPc [0x00000604] State.reset = some (0x34, 0) := by decide +kernel

/-- V-F8, V-F9, V-F11, V-F13, V-F15, and V-F10, V-F12 that complete; `pc` counts from the `PROC` here. -/
theorem test_faults_of_proc :
    statusAndPc [2, 0x20002001, 0x20001000, 1] configured = some (0x25, 0) ∧
    statusAndPc [2, 0xFFFFFFFE, 0x20001000, 2] configured = some (0x65, 0) ∧
    statusAndPc [2, 0x20001006, 0x20001000, 4] configured = some (0x45, 0) ∧
    statusAndPc [2, 0x20001000, 0x20001000, 1] configured = some (0x45, 0) ∧
    statusAndPc [2, 0xFFFFFFFF, 0x20001000, 1] configured = some (0x25, 0) ∧
    statusAndPc [2, 0xFFFFFFFE, 0x20001000, 1] configured = some (0x02, 4) ∧
    statusAndPc [2, 0x20001008, 0x20001000, 4] configured = some (0x02, 4) := by decide +kernel

/-- The map of V-F14: nothing from 20002000H up may be written. -/
def readOnlyAbove : State :=
  { configured with
    regions := [⟨0, 0x20002000, true, true, false⟩, ⟨0x20002000, 0xDFFFE000, true, false, false⟩] }

/-- V-F14: cause 5, and nothing but FAULT and CAUSE changes. -/
theorem test_fault_bus_error :
    after [2, 0x20002000, 0x20001000, 1] readOnlyAbove =
      some { readOnlyAbove with cause := some .busError, stream := [2, 0x20002000, 0x20001000, 1] } := by
  decide +kernel

/-- V-P11 and R47: an out-of-contract sample, and a buffer in a region with side effects, are refused by name. -/
theorem test_proc_refusals :
    refusalOf (exec (.proc 0x20002000 0x20001000 1) { configured with mem := [(0x20001001, 0x10)] }) =
      some .inputOutOfRange ∧
    refusalOf (exec (.proc 0x20002000 0x20001000 1)
      { configured with regions := [Region.wholeSpace, ⟨0x20002000, 2, true, true, true⟩] }) =
      some .deviceRegion := by
  decide +kernel

/-! ### Witnesses: for each obligation with hypotheses, states and operands that meet them all -/

/-- A next outcome whose state passes a test. -/
theorem exists_next {α : Type} {o : Host.Outcome α Fault Refusal} {p : α → Bool} (h : (nextOf o).any p = true) :
    ∃ t, o = .next t ∧ p t = true := by
  cases o with
  | next a => exact ⟨a, rfl, h⟩
  | fault r => cases h
  | refused r => cases h

/-- An outcome refused under a name. -/
theorem eq_refused {α : Type} {o : Host.Outcome α Fault Refusal} {r : Refusal} (h : refusalOf o = some r) :
    o = .refused r := by
  cases o with
  | next a => cases h
  | fault q => cases h
  | refused q => exact congrArg _ (Option.some.inj h)

/-- A next outcome with this value. -/
theorem eq_next {α : Type} {o : Host.Outcome α Fault Refusal} {a : α} (h : nextOf o = some a) : o = .next a := by
  cases o with
  | next b => exact congrArg _ (Option.some.inj h)
  | fault q => cases h
  | refused q => cases h

/-- Buffers of ordinary memory in the whole space. -/
theorem buffersOk_wholeSpace {out inp n : Nat} (h : out % 2 = 0 ∧ inp % 2 = 0 ∧ out + 2 * n ≤ 2 ^ 32 ∧
    inp + 2 * n ≤ 2 ^ 32 ∧ (out + 2 * n ≤ inp ∨ inp + 2 * n ≤ out)) :
    BuffersOk [Region.wholeSpace] out inp n := by
  obtain ⟨h1, h2, h3, h4, h5⟩ := h
  refine ⟨⟨h1, h2, h3, h4, h5, ?_, ?_⟩, ?_, ?_⟩ <;> intro a _ _ <;>
    simp [memValid, isDevice, Region.wholeSpace, Region.covers, Region.allows] <;> omega

theorem witness_EncodeThenDecodeIsIdentity :
    WellFormed false (.init 0xFFFFFFFF) = true ∧ WellFormed false (.rdreg .status) = true ∧
    WellFormed true (.rdreg .rout) = true ∧ WellFormed true (.rdcStep 0) = true := by decide

theorem witness_DecodedCommandIsItsEncoding :
    decode false [0x00000002, 1, 2, 3, 4] = .command (.proc 1 2 3) ∧
    decode true [0x00000D04] = .command (.rdreg .rout) := by decide

theorem witness_HeaderIsLegalExactlyAsMapped :
    decodeHeader false 0x00000001 = .legal .init ∧ decodeHeader false 0x00000002 = .legal .proc ∧
    decodeHeader false 0x00000003 = .legal .rstate ∧ decodeHeader false 0x00000004 = .legal (.rdreg .acc) ∧
    decodeHeader false 0x00000A04 = .legal (.rdreg .status) ∧
    decodeHeader false 0x00000B04 = .illegal .noSuchRegister ∧
    decodeHeader true 0x00000B04 = .legal (.rdreg .racc) ∧ decodeHeader true 0x00000D04 = .legal (.rdreg .rout) ∧
    decodeHeader true 0x00000E04 = .illegal .noSuchRegister ∧
    decodeHeader true 0x00000010 = .legal .rdcSet ∧ decodeHeader true 0x00000011 = .legal .rdcStep ∧
    decodeHeader false 0x00000010 = .illegal .reservedOpcode := by decide

theorem witness_DecoderNeverLooksAhead :
    decode false [0x00000003] ≠ .wait ∧ decode false [0x00000000] ≠ .wait := by decide

theorem witness_StepRunsTheDecodedCommand :
    (deliverWords [0x00000001, 0x00000003] State.reset).cause = none ∧
    decode false ((deliverWords [0x00000001, 0x00000003] State.reset).stream.drop 0) = .command (.init 3) := by decide

/-- V-F16 with `k = 3`, and the wait before the first word. -/
theorem witness_IncompleteCommandWaits :
    let s := deliverWords [0x00000002, 0x20002000, 0x20001000] State.reset
    (s.cause = none ∧ WellFormed s.refdc.isSome (.proc 0x20002000 0x20001000 4) = true ∧
      3 < (Instr.proc 0x20002000 0x20001000 4).words ∧
      s.stream.drop s.pc = (encode (.proc 0x20002000 0x20001000 4)).take 3) ∧
    0 < (Instr.init 3).words ∧ State.reset.stream.drop State.reset.pc = (encode (.init 3)).take 0 := by decide

theorem witness_HaltedBlockExecutesNothing : halted.cause = some .illegalCommand := by decide

theorem witness_IllegalHeaderFaultsAtOnce :
    let s := deliverWords [0x00010003] State.reset
    s.cause = none ∧ s.stream.drop s.pc = 0x00010003 :: [] ∧
      ¬∃ op, decodeHeader s.refdc.isSome 0x00010003 = .legal op := by
  refine ⟨by decide, by decide, ?_⟩
  rintro ⟨op, h⟩
  have : decodeHeader false 0x00010003 = .illegal .reservedBits := by decide
  exact absurd (this.symm.trans h) (by simp)

theorem witness_EndOfRunIsQuiet :
    RunEnded State.reset ∧ RunEnded { State.reset with stream := [3], pc := 1 } ∧ Halted halted ∧
    WaitsInside (deliverWords [0x00000001] State.reset) :=
  ⟨⟨rfl, rfl⟩, ⟨rfl, rfl⟩, ⟨_, rfl⟩, rfl, by decide, by decide⟩

/-- V-I2: selectors outside the set, one below 3, two between, one negative, and the two ends. -/
theorem witness_UnsupportedSelectorIsProfile3 :
    ∀ sel ∈ [(0 : Int), 4, 10, 31, 33, 100, -3, -5, -2147483648, 2147483647],
      (BitVec.ofInt 32 sel).toInt ≠ 3 ∧ (BitVec.ofInt 32 sel).toInt ≠ 6 ∧ (BitVec.ofInt 32 sel).toInt ≠ 9 ∧
      (BitVec.ofInt 32 sel).toInt ≠ 12 ∧ (BitVec.ofInt 32 sel).toInt ≠ 32 := by decide

theorem configuredWith_profile3 : ConfiguredWith configured profile3 ∧ ConfiguredWith running profile3 :=
  ⟨⟨by decide, rfl⟩, ⟨by decide, rfl⟩⟩

/-- One state for each clause: configured, unconfigured, with the option (RCOEF written and not), without it. -/
theorem witness_RdregPushesTheRegisterOrFaults :
    ConfiguredWith configured profile3 ∧ State.reset.mode = .uninitialized ∧ State.reset.refdc = none ∧
    (withRefdc 1 2 (some 3)).refdc = some ⟨1, some 3, 2⟩ ∧ (withRefdc 1 2 none).refdc = some ⟨1, none, 2⟩ ∧
    (deliverWords [0x00000E04] State.reset).cause = none ∧
    (deliverWords [0x00000E04] State.reset).stream.drop 0 = BitVec.ofNat 32 (4 + 256 * 14) :: [] ∧
    (deliverWords [0x0000FF04] State.reset).stream.drop 0 = BitVec.ofNat 32 (4 + 256 * 255) :: [] :=
  ⟨configuredWith_profile3.1, rfl, rfl, rfl, rfl, rfl, rfl, rfl⟩

/-- V-D8, V-D18 and the widest ACC that fits. -/
theorem witness_DcbStepComputes :
    (∃ y acc' : Int, (2048 : Nat) ≤ 4095 ∧ y = (((2048 : Nat) : Int) - 2048) * 65536 - (1 : Wide).toInt ∧
      acc' = (1 : Wide).toInt + Int.fdiv y (2 ^ 4) ∧ -(2 ^ 63) ≤ y ∧ y < 2 ^ 63 ∧ -(2 ^ 63) ≤ acc' ∧ acc' < 2 ^ 63 ∧
      y = -1 ∧ acc' = 0) ∧
    (∃ y acc' : Int, (4095 : Nat) ≤ 4095 ∧ y = (((4095 : Nat) : Int) - 2048) * 65536 - (8384512 : Wide).toInt ∧
      acc' = (8384512 : Wide).toInt + Int.fdiv y (2 ^ 4) ∧ -(2 ^ 63) ≤ y ∧ y < 2 ^ 63 ∧ -(2 ^ 63) ≤ acc' ∧
      acc' < 2 ^ 63 ∧ y = 125767680 ∧ acc' = 16244992) :=
  ⟨⟨-1, 0, by decide⟩, ⟨125767680, 16244992, by decide⟩⟩

/-- One state for each side of the overflow. -/
theorem witness_DcbStepOverflowIsRefused :
    (9223372036854775808 : Int) = (((2048 : Nat) : Int) - 2048) * 65536 - (0x8000000000000000 : Wide).toInt ∧
    (2 : Int) ^ 63 ≤ 9223372036854775808 ∧
    (-9223372036854841343 : Int) = (((2047 : Nat) : Int) - 2048) * 65536 - (0x7FFFFFFFFFFFFFFF : Wide).toInt ∧
    (-9223372036854841343 : Int) < -(2 ^ 63) := by decide

/-- V-D14, V-D15: both ends of ACC's range and both clauses. -/
theorem witness_DcbStepKeepsItsRanges :
    AccInRange (BitVec.ofInt 64 accMin) ∧ AccInRange (BitVec.ofInt 64 accMax) ∧
    (BitVec.ofInt 64 accMin).toInt ≤ (((4095 : Nat) : Int) - 2048) * 65536 ∧
    (((0 : Nat) : Int) - 2048) * 65536 < (BitVec.ofInt 64 accMax).toInt := by
  simp only [AccInRange]; decide

theorem witness_SampleAboveContractIsRefused : 4095 < 4096 ∧ 4095 < 65535 := by decide

/-- Mid-scale from the zero state (V-D1), and constant 4095 from where it settles (V-D16). -/
theorem witness_DcBlockerSettlesToZero :
    (2048 ≤ 4095 ∧ AccInRange 0 ∧ ∀ _ : Nat, dcbStep 2048 4 0 = .next (0, 0)) ∧
    4095 ≤ 4095 ∧ AccInRange 134152177 ∧ ∀ _ : Nat, dcbStep 4095 4 134152177 = .next (134152177, 0) := by
  refine ⟨⟨by decide, by simp only [AccInRange]; decide, fun _ => eq_next (by decide)⟩,
    by decide, by simp only [AccInRange]; decide, fun _ => eq_next (by decide)⟩

/-- V-B14: all four terms non-zero. -/
theorem witness_BqStepComputes :
    let f : FilterState := ⟨0, 100, -100, 50, -50⟩
    (50 : Int) = f.x1.toInt - f.y1.toInt ∧
    (6995550 : Int) = profile3.cb0.toInt * (1000 : Wide).toInt + profile3.cb1.toInt * 50 +
      profile3.cb2.toInt * f.x2.toInt - profile3.ca2.toInt * f.y2.toInt ∧
    ∀ v ∈ [(50 : Int), profile3.cb0.toInt * (1000 : Wide).toInt, profile3.cb1.toInt * 50,
        profile3.cb2.toInt * f.x2.toInt, profile3.ca2.toInt * f.y2.toInt, 6995550],
      -(2 ^ 63) ≤ v ∧ v < 2 ^ 63 := by decide

theorem witness_BqStepFitsBelowTwoPow29 :
    ∀ v ∈ [(536870911 : Wide), -536870911, 0, 536870911, -536870911], -(2 ^ 29) < v.toInt ∧ v.toInt < 2 ^ 29 := by
  simp only [List.forall_mem_cons, List.not_mem_nil, false_implies, implies_true, and_true]; decide

/-- One state for each side of the overflow. -/
theorem witness_BqSumOverflowIsRefused :
    2 ^ 63 ≤ profile3.cb0.toInt * (0x7FFFFFFFFFFFFFFF : Wide).toInt + profile3.cb1.toInt * (0 - 0) +
      profile3.cb2.toInt * 0 - profile3.ca2.toInt * 0 ∧
    profile3.cb0.toInt * (0x8000000000000000 : Wide).toInt + profile3.cb1.toInt * (0 - 0) + profile3.cb2.toInt * 0 -
      profile3.ca2.toInt * 0 < -(2 ^ 63) := by decide

/-- A difference, and then two products, that do not fit while the sum does (it is 0). -/
theorem witness_BqIntermediateOverflowIsRefused :
    let c : FilterConfiguration := ⟨6, 0, 2, 0, -2⟩
    let f : FilterState := ⟨0, 0x7FFFFFFFFFFFFFFF, 0, -1, 0⟩
    let f' : FilterState := ⟨0, 0, 0x4000000000000000, 0, 0⟩
    (2 : Int) ^ 63 ≤ f.x1.toInt - f.y1.toInt ∧ bqSum c f 0 = 0 ∧
    (2 : Int) ^ 63 ≤ c.cb0.toInt * (0x4000000000000000 : Wide).toInt ∧ bqSum c f' 0x4000000000000000 = 0 := by decide

theorem witness_Profile3SumFits32BitsWhenSmall :
    ∀ v ∈ [(40438 : Wide), -40438, 40438, 40438, -40438], -40438 ≤ v.toInt ∧ v.toInt ≤ 40438 := by
  simp only [List.forall_mem_cons, List.not_mem_nil, false_implies, implies_true, and_true]; decide

theorem witness_ZeroInputRestsFromMinus6To0 :
    -(2 ^ 29) < (-7 : Wide).toInt ∧ (-7 : Wide).toInt < 2 ^ 29 ∧ -(2 ^ 29) < (1 : Wide).toInt ∧
    (1 : Wide).toInt < 2 ^ 29 := by decide

/-- The fifth sample of the stream S (V-P4). -/
theorem witness_SampleStepClampsOnlyTheOutput :
    dcbStep 0 4 filterP1.acc = .next (-528353, -34815) ∧
    ∃ f', bqStep profile3 { filterP1 with acc := -528353 } (-34815) = .next (f', -35016) :=
  ⟨eq_next (by decide), ⟨_, eq_next (a := (⟨-528353, -34815, 32752, -35016, 32481⟩, -35016)) (by decide)⟩⟩

theorem witness_ProcOfNoSamplesOnlyRuns :
    (0 : Word).toInt ≤ 0 ∧ (0xFFFFFFFF : Word).toInt ≤ 0 ∧ ConfiguredWith configured profile3 ∧
    State.reset.mode = .uninitialized :=
  ⟨by decide, by decide, configuredWith_profile3.1, rfl⟩

/-- One pair of buffers for each clause, at the value where the clauses meet: the operands of V-F8, V-F15, V-F9, V-F11
and V-F14; counts 0 and 1. -/
theorem witness_ProcFaultsInOrder :
    State.reset.mode = .uninitialized ∧ ConfiguredWith configured profile3 ∧ (0 : Word).toInt ≤ 0 ∧
    0 < (1 : Word).toInt ∧
    ((0x20002001 : Word).toNat : Int) % 2 = 1 ∧ ((0xFFFFFFFF : Word).toNat : Int) % 2 = 1 ∧
    (((0xFFFFFFFE : Word).toNat : Int) % 2 = 0 ∧
      ((0xFFFFFFFE : Word).toNat : Int) + 2 * (2 : Word).toInt > 2 ^ 32 ∧
      ((0xFFFFFFFE : Word).toNat : Int) + 2 * (1 : Word).toInt ≤ 2 ^ 32) ∧
    (((0x20001006 : Word).toNat : Int) < (0x20001000 : Word).toNat + 2 * (4 : Word).toInt ∧
      ((0x20001000 : Word).toNat : Int) < (0x20001006 : Word).toNat + 2 * (4 : Word).toInt ∧
      ¬((0x20001008 : Word).toNat : Int) < (0x20001000 : Word).toNat + 2 * (4 : Word).toInt) ∧
    memValid readOnlyAbove.regions .write 0x20002000 = false ∧
    memValid readOnlyAbove.regions .read 0x20002000 = true :=
  ⟨rfl, configuredWith_profile3.1, by decide +kernel⟩

/-- The buffers of program P1. -/
theorem buffersOk_P1 (n : Nat) (h : n ≤ 4) :
    BuffersOk primed.regions (0x20002000 : Word).toNat (0x20001000 : Word).toNat n :=
  buffersOk_wholeSpace (by simp; omega)

theorem configuredWith_primed : ConfiguredWith primed profile3 := ⟨by decide, rfl⟩

/-- Program P1. -/
theorem witness_ProcIsTheFilterOverTheBuffer :
    ConfiguredWith primed profile3 ∧ Mem.wf primed.mem = true ∧ (4 : Word).toInt = (4 : Nat) ∧ 0 < 4 ∧
    BuffersOk primed.regions (0x20002000 : Word).toNat (0x20001000 : Word).toNat 4 ∧
    filterRun profile3 primed.filter (elems primed.mem (0x20001000 : Word).toNat 4) =
      .next (filterP1, [0, 15, BitVec.ofInt 16 (-19), 32481]) :=
  ⟨configuredWith_primed, by decide, by decide, by decide, buffersOk_P1 4 (by decide), eq_next (by decide +kernel)⟩

/-- V-P11: an element 4096. -/
theorem witness_ProcIsRefusedWhereTheFilterIs :
    let s := { configured with mem := [(0x20001001, 0x10)] }
    ConfiguredWith s profile3 ∧ Mem.wf s.mem = true ∧ (1 : Word).toInt = (1 : Nat) ∧ 0 < 1 ∧
    BuffersOk s.regions (0x20002000 : Word).toNat (0x20001000 : Word).toNat 1 ∧
    filterRun profile3 s.filter (elems s.mem (0x20001000 : Word).toNat 1) = .refused .inputOutOfRange :=
  ⟨⟨by decide, rfl⟩, by decide, by decide, by decide, buffersOk_P1 1 (by decide), eq_refused (by decide +kernel)⟩

/-- A map whose one device holds the last byte of the output buffer, or the first of the input buffer; and, for the other
direction, a map without a device. -/
theorem witness_ProcOverADeviceIsRefused :
    let map (a : Nat) : List Region := [Region.wholeSpace, ⟨a, 1, true, true, true⟩]
    (∀ a, ChecksPass (map a) (0x20002000 : Word).toNat (0x20001000 : Word).toNat 4) ∧
    isDevice (map 0x20002007) 0x20002007 = true ∧ 0x20002007 < (0x20002000 : Word).toNat + 2 * 4 ∧
    isDevice (map 0x20001000) 0x20001000 = true ∧ (0x20001000 : Word).toNat ≤ 0x20001000 ∧
    ChecksPass primed.regions (0x20002000 : Word).toNat (0x20001000 : Word).toNat 4 ∧
    ConfiguredWith { primed with regions := map 0x20002007 } profile3 ∧ (4 : Word).toInt = (4 : Nat) := by
  refine ⟨fun a => ⟨by decide, by decide, by decide, by decide, by decide, ?_, ?_⟩, by decide, by decide, by decide,
    by decide, (buffersOk_P1 4 (by decide)).toChecksPass, ⟨by decide, rfl⟩, by decide⟩ <;> intro b _ h <;>
    have : (0x20002000 : Word).toNat = 536879104 := by decide
  all_goals have : (0x20001000 : Word).toNat = 536875008 := by decide
  all_goals simp [memValid, Region.wholeSpace, Region.covers, Region.allows]; omega

/-- The first sample of program P3, 4095 (V-P9). -/
theorem witness_ProcOfOneSampleInIntegers :
    let s := { configured with mem := [(0x20001000, 0xFF), (0x20001001, 0x0F)] }
    ConfiguredWith s profile3 ∧ Mem.wf s.mem = true ∧ (1 : Word).toInt = 1 ∧
    BuffersOk s.regions (0x20002000 : Word).toNat (0x20001000 : Word).toNat 1 ∧ AccInRange s.filter.acc ∧
    (∀ v ∈ [s.filter.x1, s.filter.x2, s.filter.y1, s.filter.y2], -(2 ^ 29) < v.toInt ∧ v.toInt < 2 ^ 29) ∧
    4095 = (Mem.byteAt s.mem (0x20001000 : Word).toNat).toNat +
      256 * (Mem.byteAt s.mem ((0x20001000 : Word).toNat + 1)).toNat ∧ (4095 : Nat) ≤ 4095 ∧
    (134152192 : Int) = (((4095 : Nat) : Int) - 2048) * 65536 - s.filter.acc.toInt ∧
    (32752 : Int) = Int.fdiv 134152192 4096 ∧
    (32484 : Int) = Int.fdiv (profile3.cb0.toInt * 32752 + profile3.cb1.toInt * (s.filter.x1.toInt - s.filter.y1.toInt) +
      profile3.cb2.toInt * s.filter.x2.toInt - profile3.ca2.toInt * s.filter.y2.toInt) 8192 :=
  ⟨⟨by decide, rfl⟩, by decide, by decide, buffersOk_P1 1 (by decide), by simp only [AccInRange]; decide,
    by simp only [List.forall_mem_cons, List.not_mem_nil, false_implies, implies_true, and_true]; decide,
    by decide, by decide, by decide, by decide, by decide⟩

theorem witness_Profile3NeverOverflows :
    ConfiguredWith primed profile3 ∧ Mem.wf primed.mem = true ∧ Profile3Bounded primed.filter ∧
    Profile3Bounded filterP1 ∧ (4 : Word).toInt = (4 : Nat) ∧ 0 < 4 ∧
    BuffersOk primed.regions (0x20002000 : Word).toNat (0x20001000 : Word).toNat 4 ∧
    ∀ i, i < 4 → (elemAt primed.mem (0x20001000 : Word).toNat i).toNat ≤ 4095 :=
  ⟨configuredWith_primed, by decide, ⟨by simp only [AccInRange]; decide, by simp only [InputInRange]; decide,
      by simp only [InputInRange]; decide, by decide⟩,
    ⟨by simp only [AccInRange]; decide, by simp only [InputInRange]; decide, by simp only [InputInRange]; decide,
      by decide⟩,
    by decide, by decide, buffersOk_P1 4 (by decide), by decide +kernel⟩

/-- V-P7 in small: one sample and then three. -/
theorem witness_ProcStateContinuity :
    0 ≤ (1 : Word).toInt ∧ 0 ≤ (3 : Word).toInt ∧ (1 : Word).toInt + (3 : Word).toInt < 2 ^ 31 ∧
    Mem.wf primed.mem = true ∧ primed.cause = none ∧
    ∃ t, exec (.proc 0x20002000 0x20001000 (1 + 3)) primed = .next t ∧ t.cause = none := by
  obtain ⟨t, ht, hc⟩ := exists_next (o := exec (.proc 0x20002000 0x20001000 (1 + 3)) primed)
    (p := fun t => decide (t.cause = none)) (by decide +kernel)
  exact ⟨by decide, by decide, by decide, by decide, rfl, t, ht, of_decide_eq_true hc⟩

theorem witness_ProcOutputsAreSaturated :
    Mem.wf primed.mem = true ∧ primed.cause = none ∧
    (∃ t, exec (.proc 0x20002000 0x20001000 4) primed = .next t ∧ t.cause = none) ∧
    ((3 : Nat) : Int) < (4 : Word).toInt := by
  obtain ⟨t, ht, hc⟩ := exists_next (o := exec (.proc 0x20002000 0x20001000 4) primed)
    (p := fun t => decide (t.cause = none)) (by decide +kernel)
  exact ⟨by decide, rfl, ⟨t, ht, of_decide_eq_true hc⟩, by decide⟩

/-- A `PROC` that completes, with the bytes just below and just above its output buffer and its last input element, and
one that faults. -/
theorem witness_ProcFrame :
    (∃ t, exec (.proc 0x20002000 0x20001000 4) primed = .next t ∧ primed.cause = none ∧ t.cause = none) ∧
    (∃ t, exec (.proc 0x20002000 0x20001000 4) State.reset = .next t) ∧
    ((0x20001FFF : Nat) : Int) < (0x20002000 : Word).toNat ∧
    ((0x20002000 : Word).toNat : Int) + 2 * (4 : Word).toInt ≤ (0x20002008 : Nat) ∧
    ((3 : Nat) : Int) < (4 : Word).toInt := by
  obtain ⟨t, ht, hc⟩ := exists_next (o := exec (.proc 0x20002000 0x20001000 4) primed)
    (p := fun t => decide (t.cause = none)) (by decide +kernel)
  exact ⟨⟨t, ht, rfl, of_decide_eq_true hc⟩, ⟨_, rfl⟩, by decide, by decide, by decide⟩

/-- Two states that differ in SEL, mode, results and a byte outside the buffers. -/
theorem witness_ProcDependsOnlyOnItsInputs :
    let s2 := { primed with
      config := some { profile3 with sel := 6 }, mode := .running, results := [1], mem := (5, 7) :: primed.mem }
    ConfiguredWith primed profile3 ∧ ConfiguredWith s2 { profile3 with sel := 6 } ∧
    primed.filter = s2.filter ∧ primed.regions = s2.regions ∧ Mem.wf primed.mem = true ∧ Mem.wf s2.mem = true ∧
    (4 : Word).toInt = (4 : Nat) ∧
    elems primed.mem (0x20001000 : Word).toNat 4 = elems s2.mem (0x20001000 : Word).toNat 4 ∧
    BuffersOk primed.regions (0x20002000 : Word).toNat (0x20001000 : Word).toNat 4 ∧
    ∃ t, exec (.proc 0x20002000 0x20001000 4) primed = .next t := by
  obtain ⟨t, ht, -⟩ := exists_next (o := exec (.proc 0x20002000 0x20001000 4) primed)
    (p := fun _ => true) (by decide +kernel)
  exact ⟨configuredWith_primed, ⟨by decide, rfl⟩, rfl, rfl, by decide, by decide, by decide, by decide +kernel,
    buffersOk_P1 4 (by decide), t, ht⟩

/-- Program P3 in small: a used FilterState, then `RSTATE` and a `PROC`. -/
theorem witness_RstateIsACleanStart :
    let s := { primed with filter := filterP1, mode := .running }
    s.config = some (configOf (resolve (100 : Word).toInt)) ∧ s.mode ≠ .uninitialized ∧ Mem.wf s.mem = true ∧
    (4 : Word).toInt = (4 : Nat) ∧
    BuffersOk s.regions (0x20002000 : Word).toNat (0x20001000 : Word).toNat 4 ∧
    ∃ t, andThen (exec .rstate s) (exec (.proc 0x20002000 0x20001000 4)) = .next t := by
  intro s
  obtain ⟨t, ht, -⟩ := exists_next (o := andThen (exec .rstate s) (exec (.proc 0x20002000 0x20001000 4)))
    (p := fun _ => true) (by decide +kernel)
  exact ⟨by decide, by decide, by decide, by decide, buffersOk_P1 4 (by decide), t, ht⟩

/-- The last element of the address space. -/
theorem witness_ElementsAreLittleEndian :
    Mem.wf primed.mem = true ∧ 0x20001000 + 2 ≤ 2 ^ 32 ∧ 0xFFFFFFFE + 2 ≤ 2 ^ 32 := by decide

theorem witness_RdcSetClamps : (withRefdc 5 6 none).refdc = some ⟨5, none, 6⟩ ∧ State.reset.refdc = none :=
  ⟨rfl, rfl⟩

/-- The second step of V-X5, for any RefPre small enough: here for an operand whatever RefPre gives, with RACC 0, so
that the premise is that RefPre's value less 0 fits; and the state before the first `RDC.SET`. -/
theorem witness_RdcStepComputesOrFaults :
    (withRefdc 0 0 none).refdc = some ⟨0, none, 0⟩ ∧
    (withRefdc 0 0 (some 8000)).refdc = some ⟨0, some 8000, 0⟩ ∧
    (0 : Int) = (0 : Wide).toInt * (8000 : Wide).toInt ∧ (0 : Int) = (0 : Wide).toInt + 0 ∧
    ∃ out : Int, out = (Config.refPre 100).toInt - Int.fdiv 0 16384 ∧
      ∀ v ∈ [(0 : Int), 0, out], -(2 ^ 63) ≤ v ∧ v < 2 ^ 63 := by
  refine ⟨rfl, rfl, by decide, by decide, _, rfl, ?_⟩
  simp only [List.mem_cons, List.not_mem_nil, or_false]
  rintro v (rfl | rfl | rfl)
  · decide
  · decide
  · have h1 := BitVec.le_toInt (Config.refPre 100)
    have h2 := BitVec.toInt_lt (x := Config.refPre 100)
    simp at h1 h2 ⊢
    omega

/-- A product that does not fit, and a sum that does not fit though its product does. -/
theorem witness_RdcStepOverflowIsRefused :
    (withRefdc 0 0x7FFFFFFFFFFFFFFF (some 8000)).refdc = some ⟨0, some 8000, 0x7FFFFFFFFFFFFFFF⟩ ∧
    (2 : Int) ^ 63 ≤ (0x7FFFFFFFFFFFFFFF : Wide).toInt * (8000 : Wide).toInt ∧
    (withRefdc 0x7FFFFFFFFFFFFFFF 1 (some 3)).refdc = some ⟨0x7FFFFFFFFFFFFFFF, some 3, 1⟩ ∧
    (2 : Int) ^ 63 ≤ (0x7FFFFFFFFFFFFFFF : Wide).toInt + (1 : Wide).toInt * (3 : Wide).toInt := by decide

theorem witness_RdcIsIllegalWithoutTheOption :
    let s := deliverWords [0x00000010] State.reset
    let s' := deliverWords [0x00000011, 5] State.reset
    s.refdc = none ∧ s.cause = none ∧ s.stream.drop s.pc = 0x10 :: [] ∧
    s'.refdc = none ∧ s'.cause = none ∧ s'.stream.drop s'.pc = 0x11 :: [5] ∧
    (0x10 : Word).toNat % 256 = 0x10 ∧ (0x11 : Word).toNat % 256 = 0x11 := by decide

theorem inv_reset : Inv State.reset :=
  { memory := rfl
    lifecycle := by decide
    profile := by simp [State.reset]
    acc := by simp only [AccInRange]; decide
    x1 := by simp only [InputInRange]; decide
    x2 := by simp only [InputInRange]; decide
    rcoef := by simp [State.reset, Config.hasRefDc]
    pc := by decide }

/-- `INIT 3` from reset: a state whose invariant speaks of a written configuration follows. -/
theorem witness_StepKeepsTheInvariant :
    let s := deliverWords [0x00000001, 0x00000003] State.reset
    Inv s ∧ ∃ t, step s = .next t ∧ t.mode = .configured := by
  refine ⟨{ inv_reset with pc := by decide }, _, rfl, rfl⟩

theorem witness_ResetMeetsTheInvariant : Mem.wf primed.mem = true := by decide

/-- One command for each of the five kinds of state it may write. -/
theorem witness_OnlyTheListedCommandsWrite :
    (∃ t, exec .rstate running = .next t ∧ t.filter ≠ running.filter) ∧
    (∃ t, exec (.init 3) State.reset = .next t ∧ t.config ≠ State.reset.config) ∧
    (∃ t, exec (.proc 0x20002000 0x20001000 4) primed = .next t ∧ t.mem ≠ primed.mem) ∧
    (∃ t, exec (.rdreg .acc) running = .next t ∧ t.results ≠ running.results) ∧
    ∃ t, exec (.rdcSet 3) (withRefdc 0 0 none) = .next t ∧ t.refdc ≠ (withRefdc 0 0 none).refdc := by
  obtain ⟨t, ht, hm⟩ := exists_next (o := exec (.proc 0x20002000 0x20001000 4) primed)
    (p := fun t => decide (t.mem ≠ primed.mem)) (by decide +kernel)
  exact ⟨⟨_, rfl, by decide⟩, ⟨_, rfl, by decide⟩, ⟨t, ht, of_decide_eq_true hm⟩, ⟨_, rfl, by decide⟩, _, rfl, by decide⟩

/-- V-F1, and V-F13: an illegal header, and a command that faults. -/
theorem witness_FaultsArePrecise :
    (∃ t, step (deliverWords [0x00000000] State.reset) = .next t ∧ t.cause = some .illegalCommand) ∧
    ∃ t, step (deliverWords [2, 0x20001000, 0x20001000, 1] configured) = .next t ∧ t.cause = some .bufferOverlap := by
  obtain ⟨t, ht, hc⟩ := exists_next (o := step (deliverWords [2, 0x20001000, 0x20001000, 1] configured))
    (p := fun t => decide (t.cause = some .bufferOverlap)) (by decide +kernel)
  exact ⟨⟨_, rfl, rfl⟩, t, ht, of_decide_eq_true hc⟩

theorem witness_PcAdvancesByTheCommandLength :
    running.cause = none ∧ (∃ t, exec (.rdreg .acc) running = .next t ∧ t.cause = none) ∧
    ∃ t, exec (.rdreg .sel) State.reset = .next t ∧ t.cause ≠ none :=
  ⟨rfl, ⟨_, rfl, rfl⟩, _, rfl, by decide⟩

/-- One step for each clause. -/
theorem witness_ModeFollowsTheLifecycle :
    (∃ t, exec (.init 3) running = .next t ∧ t.mode ≠ running.mode) ∧
    (∃ t, exec (.proc 0 0 0) configured = .next t ∧ configured.cause = none) ∧
    (∃ t, exec (.proc 0 0 1) configured = .next t ∧ t.cause ≠ none) ∧
    ∃ t, step State.reset = .next t ∧ t.mode = .uninitialized := by
  obtain ⟨t, ht, hc⟩ := exists_next (o := exec (.proc 0 0 1) configured)
    (p := fun t => decide (t.cause ≠ none)) (by decide +kernel)
  exact ⟨⟨_, rfl, by decide⟩, ⟨_, rfl, rfl⟩, ⟨t, ht, of_decide_eq_true hc⟩, _, rfl, rfl⟩

/-- One refusal of each name, and one of `RDC.STEP`. -/
theorem witness_OnlyProcAndRdcStepAreRefused :
    exec (.proc 0x20002000 0x20001000 1) { configured with mem := [(0x20001001, 0x10)] } =
      .refused .inputOutOfRange ∧
    exec (.proc 0x20002000 0x20001000 1)
      { configured with regions := [Region.wholeSpace, ⟨0x20002000, 2, true, true, true⟩] } =
      .refused .deviceRegion ∧
    exec (.proc 0x20002000 0x20001000 1) { primed with filter := { filterP1 with acc := 0x8000000000000000 } } =
      .refused .wideOverflow ∧
    exec (.rdcStep 0) (withRefdc 0 0x7FFFFFFFFFFFFFFF (some 8000)) = .refused .wideOverflow :=
  ⟨eq_refused (by decide +kernel), eq_refused (by decide +kernel), eq_refused (by decide +kernel), rfl⟩

theorem witness_ResultStreamIsAppendOnly :
    ∃ t, step (deliverWords [0x00000004] running) = .next t ∧ t.results = [0x00000000007FEF10] :=
  ⟨_, rfl, by decide⟩

end Sys2Proof.Tests
end

section
/-! SUPPORT. When `DcbStep` is refused for a value that does not fit 64 bits (spec/41_dc_blocker.md), and the obligation
that rests on it. -/

namespace Sys2Proof.Proofs

open Sys2Proof.Machine Sys2Proof.Laws

/-- R90's `y`, with the model's named constants and shift written as the spec's numbers. -/
theorem dcbY_eq (raw : Nat) (acc : Wide) : dcbY raw acc = ((raw : Int) - 2048) * 65536 - acc.toInt := by
  have hpow : (2 : Int) ^ 16 = 65536 := by norm_num
  rw [dcbY, wideSample, shl, bias, hpow]

theorem fitsWide_eq_false_iff (v : Int) : fitsWide v = false ↔ v < -(2 ^ 63) ∨ 2 ^ 63 ≤ v := by
  rw [← Bool.not_eq_true, fitsWide_iff]
  omega

/-- R8 at `DcbStep`: an in-contract sample is refused as an overflow exactly when one of the step's two 64-bit values
does not fit. -/
theorem dcbStep_eq_wideOverflow_iff {raw n : Nat} {acc : Wide} (hraw : raw ≤ maxSample) :
    dcbStep raw n acc = .refused .wideOverflow ↔
      fitsWide (dcbY raw acc) = false ∨ fitsWide (dcbAcc raw n acc) = false := by
  rw [dcbStep, if_neg (not_lt.mpr hraw), ← Bool.and_eq_false_iff]
  cases fitsWide (dcbY raw acc) && fitsWide (dcbAcc raw n acc) with
  | true => simp
  | false => simp

/-- Settles O60: the given `y` is the model's, and a `y` outside 64 bits alone refuses the step, whatever the new ACC
is; so the leak shift plays no part. -/
theorem dcbStepOverflowIsRefused : Obligations.DcbStepOverflowIsRefused := by
  intro raw n acc y hraw hy hover
  have hfits : fitsWide (dcbY raw acc) = false := by
    rw [dcbY_eq, ← hy]
    exact (fitsWide_eq_false_iff y).mpr hover
  exact (dcbStep_eq_wideOverflow_iff hraw).mpr (.inl hfits)

end Sys2Proof.Proofs
end

section
/-! SUPPORT. What a completed command leaves, command by command, and what follows from it: the fields each command may
change, how far `pc` moves, and the invariant that every step keeps (spec/10_state.md). -/

namespace Sys2Proof.Proofs

open Sys2Proof.Machine Sys2Proof.Safety Sys2Proof.Laws

/-! ### Commands that complete -/

/-- `Completes s i t`: command `i` runs from `s` to its end, without a fault, and leaves `t`. It says of every command
all that it writes, and under which guards (R80, R115, R126, R127, R135, R137). -/
inductive Completes (s : State) : Instr → State → Prop
  | init (sel : Word) :
    Completes s (.init sel)
      { s with config := some (configOf (resolve (sext32 sel))), mode := .configured, pc := s.pc + 2 }
  | proc {out inp count : Word} {c : FilterConfiguration} {r : FilterState × Mem}
    (hconfig : activeConfig s = some c)
    (hchecks : bufferFault s.regions (zext32 out) (zext32 inp) (sampleCount count) = none)
    (hdevice : touchesDevice s.regions (zext32 out) (zext32 inp) (sampleCount count) = false)
    (hloop : procLoop c (zext32 out) (zext32 inp) (sampleCount count) 0 s.filter s.mem = .next r) :
    Completes s (.proc out inp count) { s with filter := r.1, mem := r.2, mode := .running, pc := s.pc + 4 }
  | rstate : Completes s .rstate { s with filter := FilterState.zero, pc := s.pc + 1 }
  | rdreg {r : RegName} {v : Wide} (hread : readReg s r = .ok v) :
    Completes s (.rdreg r) { s with results := s.results ++ [v], pc := s.pc + 1 }
  | rdcSet {coeff : Word} {b : RefBlocker} (hrefdc : s.refdc = some b) :
    Completes s (.rdcSet coeff)
      { s with refdc := some { b with rcoef := some (wide (clamp (sext32 coeff) 3 8000)) }, pc := s.pc + 2 }
  | rdcStep {input : Word} {b : RefBlocker} {coef : Wide} (hrefdc : s.refdc = some b) (hrcoef : b.rcoef = some coef)
    (hprod : fitsWide (rdcProduct coef b.rout) = true) (hacc : fitsWide (rdcAcc coef b.racc b.rout) = true)
    (hout : fitsWide (rdcOut input (rdcAcc coef b.racc b.rout)) = true) :
    Completes s (.rdcStep input)
      { s with
        refdc := some { b with
          racc := wide (rdcAcc coef b.racc b.rout)
          rout := wide (rdcOut input (rdcAcc coef b.racc b.rout)) }
        results := s.results ++ [wide (rdcOut input (rdcAcc coef b.racc b.rout))]
        pc := s.pc + 2 }

/-- A command that answers a next state faults, writing the cause alone (R152), or completes. -/
theorem exec_eq_next {i : Instr} {s t : State} (h : exec i s = .next t) :
    (∃ c, t = { s with cause := some c }) ∨ Completes s i t := by
  cases i with
  | init sel => cases h; exact .inr (.init sel)
  | proc out inp count =>
    obtain hf | ⟨c, r, hconfig, hchecks, hdevice, hloop, rfl⟩ := execProc_eq_next h
    · exact .inl hf
    · exact .inr (.proc hconfig hchecks hdevice hloop)
  | rstate => cases h; exact .inr .rstate
  | rdreg r =>
    obtain ⟨c, -, he⟩ | ⟨v, hread, he⟩ := execRdreg_cases r s <;> cases he.symm.trans h
    · exact .inl ⟨c, rfl⟩
    · exact .inr (.rdreg hread)
  | rdcSet coeff =>
    obtain ⟨-, he⟩ | ⟨b, hrefdc, he⟩ := execRdcSet_cases coeff s <;> cases he.symm.trans h
    · exact .inl ⟨_, rfl⟩
    · exact .inr (.rdcSet hrefdc)
  | rdcStep input =>
    obtain hf | ⟨b, coef, hrefdc, hrcoef, hprod, hacc, hout, rfl⟩ := execRdcStep_eq_next h
    · exact .inl hf
    · exact .inr (.rdcStep hrefdc hrcoef hprod hacc hout)

/-- A step that answers leaves the state as it was, or adds a fault cause to it, or completes the command at `pc`. -/
theorem step_eq_next_cases {s t : State} (h : step s = .next t) :
    t = s ∨ (∃ c, t = { s with cause := some c }) ∨
      ∃ i, decode s.refdc.isSome (fetch s) = .command i ∧ Completes s i t := by
  obtain rfl | ⟨-, -, -, rfl⟩ | ⟨-, i, hd, he⟩ := step_eq_next h
  · exact .inl rfl
  · exact .inr (.inl ⟨_, rfl⟩)
  · exact .inr ((exec_eq_next he).imp_right fun hc => ⟨i, hd, hc⟩)

namespace Completes

variable {s t : State} {i : Instr}

theorem cause_eq (h : Completes s i t) : t.cause = s.cause := by
  cases h <;> rfl

/-- R20. -/
theorem pc_eq (h : Completes s i t) : t.pc = s.pc + i.words := by
  cases h <;> rfl

theorem stream_eq (h : Completes s i t) : t.stream = s.stream := by
  cases h <;> rfl

/-- The lifecycle of R18 as a table: `INIT` and `PROC` set MODE, the other commands keep it. -/
theorem mode_eq (h : Completes s i t) :
    t.mode = match i with
      | .init _ => .configured
      | .proc _ _ _ => .running
      | .rstate | .rdreg _ | .rdcSet _ | .rdcStep _ => s.mode := by
  cases h <;> rfl

theorem mode_ne_uninitialized (h : Completes s i t) (hs : s.mode ≠ .uninitialized) : t.mode ≠ .uninitialized := by
  rw [h.mode_eq]
  cases i <;> simp [hs]

/-- R31. -/
theorem results_eq_or_append (h : Completes s i t) : t.results = s.results ∨ ∃ v, t.results = s.results ++ [v] := by
  cases h with
  | init | proc | rstate | rdcSet => exact .inl rfl
  | rdreg | rdcStep => exact .inr ⟨_, rfl⟩

end Completes

/-! ### Which command may change which state -/

/-- Settles O50: a command that faults writes its cause alone, and one that completes writes what `Completes` says; the
reference blocker's two commands, which need it to exist, leave it existing. -/
theorem onlyTheListedCommandsWrite : Obligations.OnlyTheListedCommandsWrite := by
  intro i s t h
  obtain ⟨c, rfl⟩ | hc := exec_eq_next h
  · simp
  · cases hc with
    | init | proc | rstate | rdreg => simp
    | rdcSet hrefdc | rdcStep hrefdc => simp [hrefdc]

/-! ### `pc`, MODE and the result stream -/

/-- R62: every command's encoding has its length in words. -/
theorem encode_length (i : Instr) : (encode i).length = i.words := by
  cases i with
  | init sel => exact EncodedLength.init sel
  | proc out inp count => exact EncodedLength.proc out inp count
  | rstate => exact EncodedLength.rstate
  | rdreg r => exact EncodedLength.rdreg r
  | rdcSet coeff => exact EncodedLength.rdcSet coeff
  | rdcStep input => exact EncodedLength.rdcStep input

/-- Settles O52: a completed command keeps the absent cause and moves `pc` by its words; a faulting one writes a cause
and no `pc`. -/
theorem pcAdvancesByTheCommandLength : Obligations.PcAdvancesByTheCommandLength := by
  intro i s t hs h
  obtain ⟨c, rfl⟩ | hc := exec_eq_next h
  · exact .inr ⟨by simp, rfl⟩
  · exact .inl ⟨hc.cause_eq.trans hs, by rw [hc.pc_eq, encode_length]⟩

/-- R18: only `INIT` and `PROC` can change MODE. -/
theorem exec_mode_ne {i : Instr} {s t : State} (h : exec i s = .next t) (hm : t.mode ≠ s.mode) :
    (∃ sel, i = .init sel) ∨ ∃ out inp count, i = .proc out inp count := by
  obtain ⟨c, rfl⟩ | hc := exec_eq_next h
  · exact absurd rfl hm
  · rw [hc.mode_eq] at hm
    cases i with
    | init sel => exact .inl ⟨sel, rfl⟩
    | proc out inp count => exact .inr ⟨out, inp, count, rfl⟩
    | rstate | rdreg | rdcSet | rdcStep => exact absurd rfl hm

/-- R18, R157: a `PROC` that completes enters Running, and one that faults keeps MODE. -/
theorem exec_proc_mode {out inp count : Word} {s t : State} (hs : s.cause = none)
    (h : exec (.proc out inp count) s = .next t) : t.mode = if t.cause = none then .running else s.mode := by
  obtain ⟨c, rfl⟩ | hc := exec_eq_next h
  · rfl
  · rw [if_pos (hc.cause_eq.trans hs), hc.mode_eq]

/-- R18: only reset enters Uninitialized. -/
theorem step_mode_ne_uninitialized {s t : State} (h : step s = .next t) (hs : s.mode ≠ .uninitialized) :
    t.mode ≠ .uninitialized := by
  obtain rfl | ⟨c, rfl⟩ | ⟨i, -, hc⟩ := step_eq_next_cases h
  · exact hs
  · exact hs
  · exact hc.mode_ne_uninitialized hs

/-- Settles O53: `INIT` cannot fault, and the other clauses are the three lemmas above. -/
theorem modeFollowsTheLifecycle : Obligations.ModeFollowsTheLifecycle := by
  refine ⟨fun sel s t h => ?_, fun _ _ _ _ _ => exec_proc_mode, fun _ _ _ => exec_mode_ne,
    fun s t h => not_imp_not.mp (step_mode_ne_uninitialized h)⟩
  cases h
  rfl

/-- Settles O56: of the three things a step can do only completing a command touches the result stream. -/
theorem resultStreamIsAppendOnly : Obligations.ResultStreamIsAppendOnly := by
  intro s t h
  obtain rfl | ⟨c, rfl⟩ | ⟨i, -, hc⟩ := step_eq_next_cases h
  · exact .inl rfl
  · exact .inl rfl
  · exact hc.results_eq_or_append

/-! ### The ranges of ACC, X1 and X2 under the sample step -/

/-- R95: the new ACC lies between the old ACC and the widened sample, whatever the leak shift. -/
theorem dcbAcc_between (raw n : Nat) (acc : Wide) :
    (acc.toInt ≤ wideSample raw → acc.toInt ≤ dcbAcc raw n acc ∧ dcbAcc raw n acc ≤ wideSample raw) ∧
    (wideSample raw < acc.toInt → wideSample raw ≤ dcbAcc raw n acc ∧ dcbAcc raw n acc < acc.toInt) := by
  unfold dcbAcc dcbY
  constructor
  · intro h
    have := asr_nonneg (v := wideSample raw - acc.toInt) n (by omega)
    omega
  · intro h
    have := asr_neg (v := wideSample raw - acc.toInt) n (by omega)
    omega

/-- R90: a widened in-contract sample lies between `L` and `U` of R95. -/
theorem wideSample_bounds {raw : Nat} (h : raw ≤ maxSample) :
    accMin ≤ wideSample raw ∧ wideSample raw ≤ accMax := by
  simp only [wideSample, shl, bias, accMin, accMax, maxSample] at *
  omega

/-- R95, R96: a `DcbStep` that answers keeps ACC in its range and gives an output in its range. -/
theorem dcbStep_keeps_ranges {raw n : Nat} {acc a o : Wide} (h : dcbStep raw n acc = .next (a, o))
    (hacc : AccInRange acc) : AccInRange a ∧ InputInRange o := by
  obtain ⟨hraw, hy, ha, rfl, rfl⟩ := dcbStep_eq_next.mp h
  obtain ⟨hlo, hhi⟩ := hacc
  obtain ⟨hwlo, hwhi⟩ := wideSample_bounds hraw
  constructor
  · obtain ⟨hup, hdown⟩ := dcbAcc_between raw n acc
    rw [AccInRange, toInt_wide ha]
    omega
  · have hfloor := asr_spec (dcbY raw acc) 12
    rw [InputInRange, dcbOut, toInt_wide (fitsWide_asr 12 hy)]
    simp only [dcbY, accMin, accMax, dcbOutMax] at *
    omega

/-- The part of the invariant that speaks of FilterState. -/
structure FilterInRange (f : FilterState) : Prop where
  acc : AccInRange f.acc
  x1 : InputInRange f.x1
  x2 : InputInRange f.x2

theorem filterInRange_zero : FilterInRange FilterState.zero := by
  constructor <;> simp only [AccInRange, InputInRange] <;> decide

theorem sampleStep_keeps_filterInRange {c : FilterConfiguration} {f f' : FilterState} {raw : Nat} {o : Half}
    (h : sampleStep c f raw = .next (f', o)) (hf : FilterInRange f) : FilterInRange f' := by
  obtain ⟨a, d, y, hdcb, hbq, -⟩ := sampleStep_eq_next.mp h
  obtain ⟨-, rfl, -⟩ := bqStep_eq_next.mp hbq
  obtain ⟨hacc, hout⟩ := dcbStep_keeps_ranges hdcb hf.acc
  exact ⟨hacc, hout, hf.x1⟩

/-- The loop of `PROC` keeps the registers in their ranges and memory canonical, sample by sample. -/
theorem procLoop_keeps {c : FilterConfiguration} {out inp n i : Nat} {f f' : FilterState} {m m' : Mem}
    (h : procLoop c out inp n i f m = .next (f', m')) (hf : FilterInRange f) (hm : m.wf = true) :
    FilterInRange f' ∧ m'.wf = true := by
  induction n generalizing i f m with
  | zero => cases h; exact ⟨hf, hm⟩
  | succ n ih =>
    obtain ⟨raw, r, m1, -, hsample, hwrite, hrest⟩ := procLoop_succ_eq_next.mp h
    obtain ⟨-, hm1, -⟩ := memWrite16_spec hm hwrite
    exact ih hrest (sampleStep_keeps_filterInRange hsample hf) hm1

/-! ### The invariant -/

theorem inv_filterInRange {s : State} (h : Inv s) : FilterInRange s.filter := ⟨h.acc, h.x1, h.x2⟩

/-- R23: what `RDC.SET` writes to RCOEF is in range. -/
theorem rcoefInRange_clamp (b : RefBlocker) (v : Int) :
    RcoefInRange { b with rcoef := some (wide (clamp v 3 8000)) } := by
  obtain ⟨hlo, hhi, -⟩ := clamp_spec (v := v) (lo := 3) (hi := 8000) (by decide)
  rintro _ ⟨⟩
  rw [toInt_wide ((fitsWide_iff _).mpr (by omega))]
  exact ⟨hlo, hhi⟩

/-- A command whose words are all delivered, when it completes, keeps the invariant. -/
theorem Completes.inv {i : Instr} {s t : State} (h : Completes s i t) (hs : Inv s)
    (hwords : s.pc + i.words ≤ s.stream.length) : Inv t := by
  have hpc : t.pc ≤ t.stream.length := by rwa [h.pc_eq, h.stream_eq]
  cases h with
  | init sel =>
    exact { hs with
      pc := hpc
      lifecycle := by simp
      profile := by rintro _ ⟨⟩; exact ⟨_, rfl⟩ }
  | proc hconfig _ _ hloop =>
    obtain ⟨hfilter, hmem⟩ := procLoop_keeps hloop (inv_filterInRange hs) hs.memory
    obtain ⟨-, hwritten⟩ := (activeConfig_eq_some_iff s _).mp hconfig
    exact { hs with
      pc := hpc
      memory := hmem
      lifecycle := by simp [hwritten]
      acc := hfilter.acc
      x1 := hfilter.x1
      x2 := hfilter.x2 }
  | rstate =>
    exact { hs with pc := hpc, acc := filterInRange_zero.acc, x1 := filterInRange_zero.x1, x2 := filterInRange_zero.x2 }
  | rdreg _ => exact { hs with pc := hpc }
  | rdcSet _ => exact { hs with pc := hpc, rcoef := by rintro _ ⟨⟩; exact rcoefInRange_clamp _ _ }
  | rdcStep hrefdc => exact { hs with pc := hpc, rcoef := by rintro _ ⟨⟩; exact (hs.rcoef _ hrefdc :) }

/-- R163: a command that decodes at `pc` has all its words delivered. -/
theorem pc_add_words_le {s : State} {i : Instr} (hs : s.pc ≤ s.stream.length)
    (h : decode s.refdc.isSome (fetch s) = .command i) : s.pc + i.words ≤ s.stream.length := by
  have := words_le_of_decode h
  rw [fetch, List.length_drop] at this
  omega

/-- Settles O48: a fault entry touches nothing the invariant speaks of, and a command completes only when all its words
are delivered. -/
theorem stepKeepsTheInvariant : Obligations.StepKeepsTheInvariant := by
  intro s t hs h
  obtain rfl | ⟨c, rfl⟩ | ⟨i, hd, hc⟩ := step_eq_next_cases h
  · exact hs
  · exact { hs with }
  · exact hc.inv hs (pc_add_words_le hs.pc hd)

/-! ### STATUS -/

/-- Concatenation as arithmetic: the upper part at the weight of the lower part's width. -/
theorem toNat_append_eq_add {m n : Nat} (x : BitVec m) (y : BitVec n) : (x ++ y).toNat = x.toNat * 2 ^ n + y.toNat := by
  rw [BitVec.toNat_append, ← Nat.shiftLeft_add_eq_or_of_lt y.isLt, Nat.shiftLeft_eq]

/-- R17: STATUS as a number, each field at the weight of its lowest bit. -/
theorem status_toNat (s : State) :
    s.status.toNat = s.mode.code.toNat + (4 * (faultField s.cause).toNat + 16 * (causeField s.cause).toNat) := by
  simp only [State.status, toNat_append_eq_add, BitVec.toNat_ofNat, Nat.zero_mod]
  omega

/-- Settles O18: STATUS is the weighted sum of its fields, and each field is read off its table. -/
theorem statusWordLayout : Obligations.StatusWordLayout := by
  intro s
  rw [status_toNat]
  congr 1
  · cases s.mode <;> rfl
  · rcases s.cause with _ | c
    · rfl
    · cases c <;> rfl

theorem status_eq_zero {s : State} (hm : s.mode = .uninitialized) (hc : s.cause = none) : s.status = 0 := by
  apply BitVec.eq_of_toNat_eq
  rw [status_toNat, hm, hc]
  rfl

/-! ### Reset -/

/-- The reset state is what the reset input makes of it, so a fact about the input is one about the state (R27,
R171). -/
theorem resetInput_reset : resetInput State.reset = State.reset := rfl

/-- R27: the reference blocker's registers after reset, where they exist. -/
theorem eq_reset_of_resetInput_refdc {s : State} {b : RefBlocker} (h : (resetInput s).refdc = some b) :
    b = RefBlocker.reset := by
  rw [resetInput_refdc, Option.map_eq_some_iff] at h
  obtain ⟨-, -, hb⟩ := h
  exact hb.symm

theorem inv_resetInput {s : State} (h : Mem.wf s.mem = true) : Inv (resetInput s) where
  memory := h
  lifecycle := by simp
  profile := by simp
  acc := filterInRange_zero.acc
  x1 := filterInRange_zero.x1
  x2 := filterInRange_zero.x2
  rcoef b hb := by rw [eq_reset_of_resetInput_refdc hb]; rintro _ ⟨⟩
  pc := by simp

/-- Settles O49: the reset state is itself the result of the reset input. -/
theorem resetMeetsTheInvariant : Obligations.ResetMeetsTheInvariant :=
  ⟨resetInput_reset ▸ inv_resetInput rfl, fun _ => inv_resetInput⟩

/-- R163: a block that has consumed every word waits. -/
theorem step_of_fetch_eq_nil {s : State} (hc : s.cause = none) (hf : fetch s = []) : step s = .next s := by
  simp [step, hc, hf, decode]

theorem step_resetInput (s : State) : step (resetInput s) = .next (resetInput s) :=
  step_of_fetch_eq_nil rfl rfl

/-- Settles O47: the table of R27 is `resetInput`'s own, and the two facts with content are that the block then waits
and that its reference blocker is the reset one. -/
theorem resetLeavesTheTable : Obligations.ResetLeavesTheTable := by
  refine ⟨fun s => ⟨rfl, rfl, rfl, rfl, rfl, rfl, status_eq_zero rfl rfl, rfl, by simp, rfl, step_resetInput s,
    fun ws => by simp, ?_⟩, rfl, rfl, rfl, rfl, rfl, rfl, rfl, rfl, step_resetInput State.reset⟩
  intro b hb
  rw [eq_reset_of_resetInput_refdc hb]
  exact ⟨rfl, rfl, rfl⟩

end Sys2Proof.Proofs
end

section
/-! SUPPORT. The loop of `PROC` as the filter over its input elements (spec/43_pipeline.md), what it writes and leaves
alone, and the obligations of spec/20_memory.md. -/

namespace Sys2Proof.Proofs

open Sys2Proof.Machine Sys2Proof.Safety Sys2Proof.Laws

/-! ### Elements in memory -/

/-- Settles O43: the read and the write of an element inside the address space are total, and their two bytes are the
element's halves. -/
theorem elementsAreLittleEndian : Obligations.ElementsAreLittleEndian := by
  intro m a v hm ha
  have hspace : a + 1 < addressLimit := by simp only [addressLimit]; omega
  constructor
  · have hwrite := memWrite16_eq (m := m) (v := v) hspace
    obtain ⟨-, hwf, hlo, hhi, hframe⟩ := memWrite16_spec hm hwrite
    refine ⟨_, hwrite, ?_, ?_, ?_, hwf, hframe⟩
    · rw [hlo, BitVec.extractLsb'_toNat, Nat.shiftRight_zero]
    · rw [hhi, BitVec.extractLsb'_toNat, Nat.shiftRight_eq_div_pow]
      exact Nat.mod_eq_of_lt (Nat.div_lt_of_lt_mul v.isLt)
    · rw [memRead16_eq hspace, hlo, hhi, half_of_bytes]
  · refine ⟨_, memRead16_eq hspace, ?_⟩
    rw [toNat_append_eq_add]
    omega

theorem elemAt_congr {m m' : Mem} {base i : Nat}
    (h : ∀ a, elemAddr base i ≤ a → a < elemAddr base (i + 1) → m'.byteAt a = m.byteAt a) :
    elemAt m' base i = elemAt m base i := by
  simp only [elemAddr] at h
  rw [elemAt, h _ (by omega) (by omega), h _ (by omega) (by omega), elemAt]

theorem elems_congr {m m' : Mem} {base n : Nat}
    (h : ∀ a, base ≤ a → a < base + 2 * n → m'.byteAt a = m.byteAt a) : elems m' base n = elems m base n := by
  refine List.map_congr_left fun i hi => elemAt_congr fun a hlo hhi => ?_
  rw [List.mem_range] at hi
  simp only [elemAddr] at hlo hhi
  exact h a (by omega) (by omega)

/-- A buffer is its first element and the buffer two bytes further. -/
theorem elems_succ (m : Mem) (base n : Nat) : elems m base (n + 1) = elemAt m base 0 :: elems m (base + 2) n := by
  simp only [elems, List.range_succ_eq_map, List.map_cons, List.map_map]
  congr 1
  refine List.map_congr_left fun i _ => ?_
  have hbase : base + 2 * (i + 1) = base + 2 + 2 * i := by omega
  simp only [Function.comp_apply, elemAt, Nat.succ_eq_add_one, hbase]

theorem elemAddr_succ (base i : Nat) : elemAddr base (i + 1) = elemAddr base i + 2 := rfl

/-- The memory with the elements `vs` in the buffer at `a`, in index order (R43, R44). -/
def writeElems : Mem → Nat → List Half → Mem
  | m, _, [] => m
  | m, a, v :: vs => writeElems ((m.put a (v.extractLsb' 0 8)).put (a + 1) (v.extractLsb' 8 8)) (a + 2) vs

/-! ### The filter and the loop -/

theorem andThen_assoc {α β γ : Type} (o : Host.Outcome α Fault Refusal) (k : α → Host.Outcome β Fault Refusal)
    (l : β → Host.Outcome γ Fault Refusal) : andThen (andThen o k) l = andThen o fun a => andThen (k a) l := by
  cases o <;> rfl

theorem filterRun_cons (c : FilterConfiguration) (f : FilterState) (raw : Half) (rest : List Half) :
    filterRun c f (raw :: rest) =
      andThen (sampleStep c f raw.toNat) fun r =>
      andThen (filterRun c r.1 rest) fun q =>
      .next (q.1, r.2 :: q.2) := rfl

theorem filterRun_no_fault {c : FilterConfiguration} {f : FilterState} {raws : List Half} {r : Fault} :
    filterRun c f raws ≠ .fault r := by
  induction raws generalizing f with
  | nil => rintro ⟨⟩
  | cons raw rest ih =>
    rw [filterRun_cons]
    intro h
    obtain h | ⟨p, -, h⟩ := andThen_eq_fault.mp h
    · exact sampleStep_no_fault h
    · obtain h | ⟨q, -, ⟨⟩⟩ := andThen_eq_fault.mp h
      exact ih h

/-- R115: over buffers inside the address space that do not meet, the loop is the filter over the input elements as they
were before the first write, followed by the writes. -/
theorem procLoop_eq_filterRun {c : FilterConfiguration} {out inp n i : Nat} {f : FilterState} {m : Mem}
    (hout : elemAddr out (i + n) ≤ addressLimit) (hinp : elemAddr inp (i + n) ≤ addressLimit)
    (hapart : elemAddr inp (i + n) ≤ elemAddr out i ∨ elemAddr out (i + n) ≤ elemAddr inp i) :
    procLoop c out inp n i f m =
      andThen (filterRun c f (elems m (elemAddr inp i) n)) fun q =>
      .next (q.1, writeElems m (elemAddr out i) q.2) := by
  induction n generalizing i f m with
  | zero => rfl
  | succ n ih =>
    rw [show i + (n + 1) = i + 1 + n by omega] at hout hinp hapart
    have hreadable : elemAddr inp i + 1 < addressLimit := by simp only [elemAddr] at *; omega
    have hwritable : elemAddr out i + 1 < addressLimit := by simp only [elemAddr] at *; omega
    rw [procLoop_succ, memRead16_eq hreadable, andThen_next, elems_succ, filterRun_cons, andThen_assoc]
    congr 1
    funext r
    have hwrite := memWrite16_eq (m := m) (v := r.2) hwritable
    obtain ⟨-, hframe⟩ := memWrite16_frame hwrite
    rw [hwrite, andThen_next, ih hout hinp (by simp only [elemAddr] at *; omega), andThen_assoc, elemAddr_succ inp,
      elems_congr fun a hlo hhi => hframe a (by simp only [elemAddr] at *; omega) (by simp only [elemAddr] at *; omega)]
    rfl

/-- The same of a loop that the buffer checks let through, also where there is nothing to check (R116). -/
theorem procLoop_eq_filterRun_of_bufferFault {map : List Region} {c : FilterConfiguration} {out inp n : Nat}
    {f : FilterState} {m : Mem} (h : bufferFault map out inp n = none) :
    procLoop c out inp n 0 f m =
      andThen (filterRun c f (elems m inp n)) fun q => .next (q.1, writeElems m out q.2) := by
  obtain rfl | hn := Nat.eq_zero_or_pos n
  · rfl
  · obtain ⟨-, -, hout, hinp, hapart, -, -⟩ := (bufferFault_eq_none hn).mp h
    exact procLoop_eq_filterRun (by simpa [elemAddr] using hout) (by simpa [elemAddr] using hinp)
      (by simpa [elemAddr] using hapart)

/-- A loop that answers leaves every byte outside its output elements alone. -/
theorem procLoop_frame {c : FilterConfiguration} {out inp n i : Nat} {f : FilterState} {m : Mem} {q : FilterState × Mem}
    (h : procLoop c out inp n i f m = .next q) {a : Nat} (ha : a < elemAddr out i ∨ elemAddr out (i + n) ≤ a) :
    q.2.byteAt a = m.byteAt a := by
  induction n generalizing i f m with
  | zero => cases h; rfl
  | succ n ih =>
    obtain ⟨raw, r, m1, -, -, hwrite, hrest⟩ := procLoop_succ_eq_next.mp h
    obtain ⟨-, hframe⟩ := memWrite16_frame hwrite
    simp only [elemAddr] at *
    rw [ih hrest (by omega), hframe a (by omega) (by omega)]

/-! ### `PROC` -/

theorem bufferFault_eq_none_iff_checksPass {map : List Region} {out inp n : Nat} (hn : 0 < n) :
    bufferFault map out inp n = none ↔ ChecksPass map out inp n := by
  rw [bufferFault_eq_none hn]
  exact ⟨fun ⟨hout, hinp, hos, his, hapart, hread, hwrite⟩ => ⟨hout, hinp, hos, his, hapart.symm, hread, hwrite⟩,
    fun ⟨hout, hinp, hos, his, hapart, hread, hwrite⟩ => ⟨hout, hinp, hos, his, hapart.symm, hread, hwrite⟩⟩

theorem sampleCount_eq_of_toInt {count : Word} {n : Nat} (h : count.toInt = n) : sampleCount count = n := by
  rw [sampleCount, sext32, h, Int.toNat_natCast]

/-- A configured `PROC` with a positive count whose buffers pass the checks of R119: the test for devices and then the
loop. -/
theorem exec_proc_of_checksPass {s : State} {c : FilterConfiguration} {out inp count : Word} {n : Nat}
    (hc : ConfiguredWith s c) (hcount : count.toInt = n) (hn : 0 < n)
    (hchecks : ChecksPass s.regions out.toNat inp.toNat n) :
    exec (.proc out inp count) s =
      if touchesDevice s.regions out.toNat inp.toNat n then .refused .deviceRegion
      else
        andThen (procLoop c out.toNat inp.toNat n 0 s.filter s.mem) fun r =>
        complete 4 { s with filter := r.1, mem := r.2, mode := .running } := by
  have hactive : activeConfig s = some c := (activeConfig_eq_some_iff s c).mpr hc
  have hnone := (bufferFault_eq_none_iff_checksPass hn).mpr hchecks
  simp only [exec, execProc, hactive, procBuffers, zext32, sampleCount_eq_of_toInt hcount, hnone]

/-- Settles O34: the buffers touch no device, so the command is its loop, which is refused as the filter is. -/
theorem procIsRefusedWhereTheFilterIs : Obligations.ProcIsRefusedWhereTheFilterIs := by
  intro s c out inp count n r hc _ hcount hn hbuf hrun
  have hdevice := touchesDevice_eq_false.mpr ⟨hbuf.inpOrdinary, hbuf.outOrdinary⟩
  have hnone := (bufferFault_eq_none_iff_checksPass hn).mpr hbuf.toChecksPass
  rw [exec_proc_of_checksPass hc hcount hn hbuf.toChecksPass, hdevice, procLoop_eq_filterRun_of_bufferFault hnone, hrun]
  rfl

/-- R47: when a byte of either buffer lies in a region with side effects. -/
theorem touchesDevice_eq_true {map : List Region} {out inp n : Nat} :
    touchesDevice map out inp n = true ↔
      ∃ a, isDevice map a = true ∧ (inp ≤ a ∧ a < inp + 2 * n ∨ out ≤ a ∧ a < out + 2 * n) := by
  rw [← not_iff_not, Bool.not_eq_true, touchesDevice_eq_false]
  constructor
  · rintro ⟨hinp, hout⟩ ⟨a, ha, ⟨hlo, hhi⟩ | ⟨hlo, hhi⟩⟩
    · exact Bool.false_ne_true ((hinp a hlo hhi).symm.trans ha)
    · exact Bool.false_ne_true ((hout a hlo hhi).symm.trans ha)
  · intro h
    exact ⟨fun a hlo hhi => Bool.eq_false_iff.mpr fun ha => h ⟨a, ha, .inl ⟨hlo, hhi⟩⟩,
      fun a hlo hhi => Bool.eq_false_iff.mpr fun ha => h ⟨a, ha, .inr ⟨hlo, hhi⟩⟩⟩

/-- Settles O59: past the checks only the test for devices refuses under this name; the loop's own refusals have
others. -/
theorem procOverADeviceIsRefused : Obligations.ProcOverADeviceIsRefused := by
  intro s c out inp count n hc hcount hn hchecks
  rw [← touchesDevice_eq_true, exec_proc_of_checksPass hc hcount hn hchecks]
  cases touchesDevice s.regions out.toNat inp.toNat n with
  | true => simp
  | false =>
    simp only [Bool.false_eq_true, if_false, iff_false]
    intro h
    obtain hloop | ⟨r, -, ⟨⟩⟩ := andThen_eq_refused.mp h
    obtain h | h := procLoop_eq_refused hloop <;> cases h

/-- Settles O39: a faulting `PROC` writes its cause alone; a completed one writes inside its output buffer, which the
checks keep off its input. -/
theorem procFrame : Obligations.ProcFrame := by
  intro s t out inp count h
  obtain ⟨c, rfl⟩ | hc := exec_eq_next h
  · exact ⟨rfl, rfl, rfl, rfl, rfl, fun _ _ => rfl, fun _ => nofun⟩
  · cases hc with
    | proc _ hchecks _ hloop =>
      refine ⟨rfl, rfl, rfl, rfl, rfl, fun a ha => procLoop_frame hloop ?_, fun _ _ i hi => elemAt_congr fun a hlo hhi =>
        procLoop_frame hloop ?_⟩
      · simp only [elemAddr, zext32, sampleCount, sext32]
        omega
      · have hn : 0 < sampleCount count := by simp only [sampleCount, sext32]; omega
        have hapart := ((bufferFault_eq_none_iff_checksPass hn).mp hchecks).disjoint
        simp only [elemAddr, zext32, sampleCount, sext32] at *
        omega

/-! ### No step faults outside the address space -/

theorem execProc_no_fault {out inp count : Word} {s : State} {r : Fault} : execProc out inp count s ≠ .fault r := by
  unfold execProc procBuffers
  split
  · rintro ⟨⟩
  · split
    · rintro ⟨⟩
    · next hchecks =>
      split
      · rintro ⟨⟩
      · rw [procLoop_eq_filterRun_of_bufferFault hchecks, andThen_assoc]
        intro h
        obtain h | ⟨q, -, ⟨⟩⟩ := andThen_eq_fault.mp h
        exact filterRun_no_fault h

theorem execRdcStep_no_fault {input : Word} {s : State} {r : Fault} : execRdcStep input s ≠ .fault r := by
  unfold execRdcStep
  split
  · rintro ⟨⟩
  · split
    · rintro ⟨⟩
    · dsimp only
      split <;> rintro ⟨⟩

theorem exec_no_fault {i : Instr} {s : State} {r : Fault} : exec i s ≠ .fault r := by
  cases i with
  | init | rstate => rintro ⟨⟩
  | proc out inp count => exact execProc_no_fault
  | rdreg reg =>
    obtain ⟨_, -, he⟩ | ⟨_, -, he⟩ := execRdreg_cases reg s <;> exact fun h => nomatch he.symm.trans h
  | rdcSet coeff =>
    obtain ⟨-, he⟩ | ⟨_, -, he⟩ := execRdcSet_cases coeff s <;> exact fun h => nomatch he.symm.trans h
  | rdcStep input => exact execRdcStep_no_fault

/-- Settles O54: only a command touches memory, and `PROC` is the filter over buffers it has checked. -/
theorem stepNeverLeavesTheAddressSpace : Obligations.StepNeverLeavesTheAddressSpace := by
  intro s r
  unfold step
  split
  · rintro ⟨⟩
  · split
    · rintro ⟨⟩
    · rintro ⟨⟩
    · exact exec_no_fault

end Sys2Proof.Proofs
end

section
/-! SUPPORT. The decoder and the encoder as inverses (spec/30_encoding.md), the opcode map as numbers, and the
obligations about the encoding and the step that decodes. -/

namespace Sys2Proof.Proofs

open Sys2Proof.Machine Sys2Proof.Laws

/-! ### The opcode map as a table -/

/-- The one header word of each opcode (R61, R68); `decodeHeader_eq_legal_iff` ties it to the decoder. -/
def headerOf : Opcode → Word
  | .init => headerWord 0x01 0
  | .proc => headerWord 0x02 0
  | .rstate => headerWord 0x03 0
  | .rdreg r => headerWord 0x04 r.number
  | .rdcSet => headerWord 0x10 0
  | .rdcStep => headerWord 0x11 0

/-- The opcodes of a build (R69, R71). -/
def opcodeExistsIn (refdc : Bool) : Opcode → Bool
  | .init | .proc | .rstate => true
  | .rdreg r => r.existsIn refdc
  | .rdcSet | .rdcStep => refdc

/-- R68, R69: a header is legal exactly as the one header word of an opcode that the build has. -/
theorem decodeHeader_eq_legal_iff {refdc : Bool} {h : Word} {op : Opcode} :
    decodeHeader refdc h = .legal op ↔ opcodeExistsIn refdc op = true ∧ h = headerOf op := by
  constructor
  · intro hd
    obtain ⟨hres, hop⟩ := decodeHeader_legal hd
    rw [header_eq_fields h hres]
    obtain ⟨rfl, ho, hr⟩ | ⟨rfl, ho, hr⟩ | ⟨rfl, ho, hr⟩ | ⟨r, rfl, ho, hr, hex⟩ | ⟨rfl, ho, hr, hex⟩ |
      ⟨rfl, ho, hr, hex⟩ := hop <;> rw [ho, hr]
    · exact ⟨rfl, rfl⟩
    · exact ⟨rfl, rfl⟩
    · exact ⟨rfl, rfl⟩
    · exact ⟨hex, rfl⟩
    · exact ⟨hex, rfl⟩
    · exact ⟨hex, rfl⟩
  · rintro ⟨hex, rfl⟩
    cases op with
    | init | proc | rstate => cases refdc <;> rfl
    | rdreg r =>
      have hreg : rdregHeader refdc (headerWord 0x04 r.number) = .legal (.rdreg r) :=
        rdregHeader_eq_legal.mpr ⟨r, rfl, regField_headerWord _ _, hex⟩
      simpa [headerOf, decodeHeader, reservedField_headerWord, opField_headerWord] using hreg
    | rdcSet | rdcStep => cases hex; rfl

/-! ### Decode and encode -/

/-- The opcode of a command, its header without the operand words. -/
def opcodeOf : Instr → Opcode
  | .init _ => .init
  | .proc _ _ _ => .proc
  | .rstate => .rstate
  | .rdreg r => .rdreg r
  | .rdcSet _ => .rdcSet
  | .rdcStep _ => .rdcStep

/-- The operand words of a command, in the order written (R63 to R66). -/
def operandsOf : Instr → List Word
  | .init sel => [sel]
  | .proc out inp count => [out, inp, count]
  | .rstate | .rdreg _ => []
  | .rdcSet coeff => [coeff]
  | .rdcStep input => [input]

theorem encode_eq_cons (i : Instr) : encode i = headerOf (opcodeOf i) :: operandsOf i := by
  cases i <;> rfl

theorem wellFormed_eq (refdc : Bool) (i : Instr) : WellFormed refdc i = opcodeExistsIn refdc (opcodeOf i) := by
  cases i <;> rfl

/-- R62, R65, R66: the words after a legal header give a command exactly if they begin with its operand words. -/
theorem assemble_eq_some_iff {op : Opcode} {ws : List Word} {i : Instr} :
    assemble op ws = some i ↔ op = opcodeOf i ∧ ∃ rest, ws = operandsOf i ++ rest := by
  constructor
  · intro h
    unfold assemble at h
    split at h <;> cases h <;> exact ⟨rfl, _, rfl⟩
  · rintro ⟨rfl, rest, rfl⟩
    cases i <;> rfl

/-- R73, both directions: the decoder reads a command exactly if the build has it and the words begin with its
encoding. -/
theorem decode_eq_command_iff {refdc : Bool} {ws : List Word} {i : Instr} :
    decode refdc ws = .command i ↔ WellFormed refdc i = true ∧ ∃ rest, ws = encode i ++ rest := by
  simp only [decode_eq_command, decodeHeader_eq_legal_iff, assemble_eq_some_iff, wellFormed_eq, encode_eq_cons]
  constructor
  · rintro ⟨_, _, _, rfl, ⟨hex, rfl⟩, rfl, rest, rfl⟩
    exact ⟨hex, rest, rfl⟩
  · rintro ⟨hex, rest, rfl⟩
    exact ⟨_, _, _, rfl, ⟨hex, rfl⟩, rfl, rest, rfl⟩

/-- Settles O1: the words of a command that the build has are words that begin with them. -/
theorem encodeThenDecodeIsIdentity : Obligations.EncodeThenDecodeIsIdentity :=
  fun _ _ rest hwf => decode_eq_command_iff.mpr ⟨hwf, rest, rfl⟩

/-- Settles O2, the other direction of the same equivalence. -/
theorem decodedCommandIsItsEncoding : Obligations.DecodedCommandIsItsEncoding :=
  fun _ _ _ => decode_eq_command_iff.mp

/-- Settles O4: seven of the examples are the encoding of their command; the eighth is a reserved header. -/
theorem exampleWordsDecode : Obligations.ExampleWordsDecode :=
  ⟨encodeThenDecodeIsIdentity false (.init _) [] rfl, encodeThenDecodeIsIdentity false (.proc _ _ _) [] rfl,
    encodeThenDecodeIsIdentity false .rstate [] rfl, encodeThenDecodeIsIdentity false (.rdreg .cb1) [] rfl,
    encodeThenDecodeIsIdentity false (.rdreg .status) [] rfl, encodeThenDecodeIsIdentity true (.rdcSet _) [] rfl,
    encodeThenDecodeIsIdentity true (.rdcStep _) [] rfl, by decide⟩

/-- Settles O11, by running the assembler on the ten closed lines. -/
theorem exampleLinesAssemble : Obligations.ExampleLinesAssemble := by
  unfold Obligations.ExampleLinesAssemble
  decide +kernel

/-! ### Illegal headers -/

/-- R73: the decoder answers an illegal header exactly where the first word is one. -/
theorem decode_eq_illegal_iff {refdc : Bool} {ws : List Word} {why : IllegalHeader} :
    decode refdc ws = .illegal why ↔ ∃ h rest, ws = h :: rest ∧ decodeHeader refdc h = .illegal why := by
  cases ws with
  | nil => simp [decode]
  | cons h rest =>
    unfold decode
    cases hd : decodeHeader refdc h with
    | illegal why' => simp [hd]
    | legal op => cases ha : assemble op rest <;> simp [hd, ha]

/-- Settles O5: what decodes begins with a whole command or with an illegal header, and still does with more words
behind it. -/
theorem decoderNeverLooksAhead : Obligations.DecoderNeverLooksAhead := by
  intro refdc ws more hwait
  cases hd : decode refdc ws with
  | wait => exact absurd hd hwait
  | illegal why =>
    obtain ⟨h, rest, rfl, hh⟩ := decode_eq_illegal_iff.mp hd
    exact decode_eq_illegal_iff.mpr ⟨h, rest ++ more, rfl, hh⟩
  | command i =>
    obtain ⟨hwf, rest, rfl⟩ := decode_eq_command_iff.mp hd
    exact decode_eq_command_iff.mpr ⟨hwf, rest ++ more, List.append_assoc _ _ _⟩

/-! ### The legal headers as numbers -/

/-- R26, R69: the registers of a build are those numbered to 10, or to 13 with the reference blocker. -/
theorem existsIn_iff_number (refdc : Bool) (r : RegName) :
    r.existsIn refdc = true ↔ r.number.toNat ≤ 10 ∨ refdc = true ∧ 11 ≤ r.number.toNat ∧ r.number.toNat ≤ 13 := by
  cases r <;> simp [RegName.existsIn, RegName.number]

/-- R26: every number to 13 is a register's. -/
theorem exists_number_eq {n : Nat} (h : n ≤ 13) : ∃ r : RegName, r.number.toNat = n := by
  have hall : ∀ n ≤ 13, ∃ r, RegName.ofNumber (BitVec.ofNat 8 n) = some r ∧ (BitVec.ofNat 8 n).toNat = n := by decide
  obtain ⟨r, hr, hn⟩ := hall n h
  exact ⟨r, number_of_ofNumber hr ▸ hn⟩

theorem headerOf_rdreg_toNat (r : RegName) : (headerOf (.rdreg r)).toNat = 0x04 + 256 * r.number.toNat := by
  rw [headerOf, headerWord_toNat, Nat.add_comm, Nat.mul_comm]
  rfl

/-- Settles O3: the legal headers are the words of the opcodes, and the registers are read off their numbers. -/
theorem headerIsLegalExactlyAsMapped : Obligations.HeaderIsLegalExactlyAsMapped := by
  intro refdc h
  simp only [decodeHeader_eq_legal_iff]
  constructor
  · rintro ⟨op, hex, rfl⟩
    cases op with
    | init => exact .inl rfl
    | proc => exact .inr (.inl rfl)
    | rstate => exact .inr (.inr (.inl rfl))
    | rdreg r =>
      have hnum := headerOf_rdreg_toNat r
      obtain hlow | ⟨hopt, hlo, hhi⟩ := (existsIn_iff_number refdc r).mp hex
      · exact .inr (.inr (.inr (.inl ⟨_, hlow, hnum⟩)))
      · exact .inr (.inr (.inr (.inr ⟨hopt, .inr (.inr ⟨_, hlo, hhi, hnum⟩)⟩)))
    | rdcSet => exact .inr (.inr (.inr (.inr ⟨hex, .inl rfl⟩)))
    | rdcStep => exact .inr (.inr (.inr (.inr ⟨hex, .inr (.inl rfl)⟩)))
  · have register : ∀ n, (n ≤ 10 ∨ refdc = true ∧ 11 ≤ n ∧ n ≤ 13) → h.toNat = 0x04 + 256 * n →
        ∃ op, opcodeExistsIn refdc op = true ∧ h = headerOf op := by
      intro n hn hh
      obtain ⟨r, rfl⟩ := exists_number_eq (n := n) (by omega)
      exact ⟨.rdreg r, (existsIn_iff_number refdc r).mpr hn,
        BitVec.eq_of_toNat_eq (hh.trans (headerOf_rdreg_toNat r).symm)⟩
    rintro (hh | hh | hh | ⟨n, hn, hh⟩ | ⟨hopt, hh | hh | ⟨n, hlo, hhi, hh⟩⟩)
    · exact ⟨.init, rfl, BitVec.eq_of_toNat_eq hh⟩
    · exact ⟨.proc, rfl, BitVec.eq_of_toNat_eq hh⟩
    · exact ⟨.rstate, rfl, BitVec.eq_of_toNat_eq hh⟩
    · exact register n (.inl hn) hh
    · exact ⟨.rdcSet, hopt, BitVec.eq_of_toNat_eq hh⟩
    · exact ⟨.rdcStep, hopt, BitVec.eq_of_toNat_eq hh⟩
    · exact register n (.inr ⟨hopt, hlo, hhi⟩) hh

/-- R71: without the reference blocker OP 10H and 11H are of no legal header. -/
theorem decodeHeader_ne_legal_of_rdc {h : Word} (hop : h.toNat % 256 = 0x10 ∨ h.toNat % 256 = 0x11) (op : Opcode) :
    decodeHeader false h ≠ .legal op := by
  intro hd
  obtain ⟨hex, rfl⟩ := decodeHeader_eq_legal_iff.mp hd
  cases op with
  | init | proc | rstate => exact absurd hop (by decide)
  | rdreg r =>
    rw [headerOf_rdreg_toNat] at hop
    omega
  | rdcSet | rdcStep => cases hex

/-! ### One step -/

/-- Settles O6: with no cause and a whole command at `pc`, `exec` is the branch that `step` takes. -/
theorem stepRunsTheDecodedCommand : Obligations.StepRunsTheDecodedCommand := by
  intro s i hc hd
  simp only [step, hc, fetch, hd]

/-- R70, R147: an illegal header at `pc` faults with cause 1, whatever follows it. -/
theorem step_of_illegal_header {s : State} {h : Word} {rest : List Word} (hc : s.cause = none)
    (hf : fetch s = h :: rest) (hh : ∀ op, decodeHeader s.refdc.isSome h ≠ .legal op) :
    step s = .next { s with cause := some .illegalCommand } := by
  cases hd : decodeHeader s.refdc.isSome h with
  | legal op => exact absurd hd (hh op)
  | illegal why =>
    have hdec : decode s.refdc.isSome (fetch s) = .illegal why := decode_eq_illegal_iff.mpr ⟨h, rest, hf, hd⟩
    simp only [step, hc, hdec, raise_eq]

theorem exec_rdcSet_of_refdc_eq_none {s : State} (hs : s.refdc = none) (coeff : Word) :
    exec (.rdcSet coeff) s = .next { s with cause := some .illegalCommand } := by
  simp only [exec, execRdcSet, hs, raise_eq]

theorem exec_rdcStep_of_refdc_eq_none {s : State} (hs : s.refdc = none) (input : Word) :
    exec (.rdcStep input) s = .next { s with cause := some .illegalCommand } := by
  simp only [exec, execRdcStep, hs, raise_eq]

/-- Settles O46: without the option neither the commands nor their headers have a meaning; with it the two headers are
those of the commands' encodings. -/
theorem rdcIsIllegalWithoutTheOption : Obligations.RdcIsIllegalWithoutTheOption := by
  refine ⟨rfl, fun s h w rest => ⟨fun hs => ⟨exec_rdcSet_of_refdc_eq_none hs w, exec_rdcStep_of_refdc_eq_none hs w,
    fun hc hf hop => step_of_illegal_header hc hf ?_⟩, encodeThenDecodeIsIdentity true (.rdcSet w) rest rfl,
    encodeThenDecodeIsIdentity true (.rdcStep w) rest rfl⟩⟩
  rw [hs]
  exact decodeHeader_ne_legal_of_rdc hop

end Sys2Proof.Proofs
end

section
/-! SUPPORT. The coefficient ROM as register contents, the profile a selector resolves to, and the obligations about
`INIT` (spec/40_coefficient_table.md). -/

namespace Sys2Proof.Proofs

open Sys2Proof.Machine Sys2Proof.Laws

/-! ### `ROM[3]` -/

/-- R82: `ROM[3]` as register contents. -/
theorem rom_s3 : rom .s3 = ⟨0x00001E3B, 0x00001FBD, 0xFFFFC682, 0x00001E7D⟩ := by
  decide

/-- R82: `ROM[3]` as integers. -/
theorem rom3_toInt :
    rom3.a2.toInt = 7739 ∧ rom3.b0.toInt = 8125 ∧ rom3.b1.toInt = -14718 ∧ rom3.b2.toInt = 7805 := by
  decide

/-- Settles O14: with the integers of `ROM[3]` known, the four truncations are arithmetic on the source's digits. -/
theorem rom3IsTruncatedTowardZero : Obligations.Rom3IsTruncatedTowardZero := by
  obtain ⟨ha2, hb0, hb1, hb2⟩ := rom3_toInt
  unfold Obligations.Rom3IsTruncatedTowardZero
  rw [ha2, hb0, hb1, hb2]
  exact ⟨by decide, rfl, by decide, rfl, by decide, rfl, by decide, rfl, rom_s3⟩

/-! ### The profile a selector resolves to -/

/-- R83: the fallback to the -3 dB profile. -/
theorem resolve_eq_s3 {sel : Int} (h6 : sel ≠ 6) (h9 : sel ≠ 9) (h12 : sel ≠ 12) (h32 : sel ≠ 32) :
    resolve sel = .s3 := by
  simp only [resolve, h6, h9, h12, h32, if_false]

/-- R16, R82: the configuration of the -3 dB profile, its selector included. -/
theorem configOf_s3 : configOf .s3 = ⟨3, 0x00001E3B, 0x00001FBD, 0xFFFFC682, 0x00001E7D⟩ := by
  rw [configOf, rom_s3]
  rfl

/-- R80, R83: the configuration that a selector loads, profile by profile. -/
theorem configOf_resolve (sel : Int) :
    configOf (resolve sel) =
      if sel = 6 then ⟨6, Config.rom6.a2, Config.rom6.b0, Config.rom6.b1, Config.rom6.b2⟩
      else if sel = 9 then ⟨9, Config.rom9.a2, Config.rom9.b0, Config.rom9.b1, Config.rom9.b2⟩
      else if sel = 12 then ⟨12, Config.rom12.a2, Config.rom12.b0, Config.rom12.b1, Config.rom12.b2⟩
      else if sel = 32 then ⟨32, Config.rom32.a2, Config.rom32.b0, Config.rom32.b1, Config.rom32.b2⟩
      else ⟨3, 0x00001E3B, 0x00001FBD, 0xFFFFC682, 0x00001E7D⟩ := by
  simp only [resolve, apply_ite configOf, configOf_s3]
  rfl

/-! ### `INIT` -/

/-- R80: `INIT` depends on its selector only through the profile it resolves to. -/
theorem exec_init_eq (sel : Word) (s : State) :
    exec (.init sel) s =
      .next { s with config := some (configOf (resolve sel.toInt)), mode := .configured, pc := s.pc + 2 } :=
  execInit_eq sel s

/-- Settles O12: the next state is `INIT`'s own, with the loaded configuration written out per profile. -/
theorem initLoadsTheResolvedProfile : Obligations.InitLoadsTheResolvedProfile := by
  intro sel s
  have hwords : encode (.init sel) = [0x00000001, sel] := rfl
  exact ⟨hwords, by rw [exec_init_eq, configOf_resolve]⟩

/-- Settles O13: the selector and 3 itself both resolve to the -3 dB profile. -/
theorem unsupportedSelectorIsProfile3 : Obligations.UnsupportedSelectorIsProfile3 := by
  intro sel s _ h6 h9 h12 h32
  have hsel : resolve sel.toInt = .s3 := resolve_eq_s3 h6 h9 h12 h32
  have hthree : resolve (3 : Word).toInt = .s3 := by decide
  rw [exec_init_eq, exec_init_eq, hsel, hthree]
  exact ⟨rfl, _, _, rfl, rfl, rfl, rfl⟩

end Sys2Proof.Proofs
end

section
/-! SUPPORT. `DcbStep` in integers, its rest under constant input (spec/41_dc_blocker.md), the sample step from bounded
registers, and a `PROC` of one sample. -/

namespace Sys2Proof.Proofs

open Sys2Proof.Machine Sys2Proof.Safety Sys2Proof.Laws

/-! ### One step of the DC blocker -/

/-- Settles O21: the test of the sample comes first. -/
theorem sampleAboveContractIsRefused : Obligations.SampleAboveContractIsRefused := by
  intro raw n acc hraw
  exact if_pos hraw

/-- R90's widened sample in the spec's numbers. -/
theorem wideSample_eq (raw : Nat) : wideSample raw = ((raw : Int) - 2048) * 65536 := rfl

/-- R90's new ACC with the leak as a floor division. -/
theorem dcbAcc_eq (raw n : Nat) (acc : Wide) :
    dcbAcc raw n acc = acc.toInt + Int.fdiv (dcbY raw acc) (2 ^ n) := by
  rw [dcbAcc, asr_eq_fdiv]

/-- R90's output as a floor division. -/
theorem dcbOut_eq (raw : Nat) (acc : Wide) : dcbOut raw acc = Int.fdiv (dcbY raw acc) 4096 :=
  asr_eq_fdiv (dcbY raw acc) 12

/-- Settles O19: the given `y` and `acc'` are the model's, and both fit, so the step answers; its output fits because
`y` does. -/
theorem dcbStepComputes : Obligations.DcbStepComputes := by
  intro raw n acc y acc' hraw hy hacc' hylo hyhi halo hahi
  rw [← dcbY_eq] at hy
  subst hy
  rw [← dcbAcc_eq] at hacc'
  subst hacc'
  have hfitsY : fitsWide (dcbY raw acc) = true := (fitsWide_iff _).mpr (by omega)
  have hfitsAcc : fitsWide (dcbAcc raw n acc) = true := (fitsWide_iff _).mpr (by omega)
  refine ⟨_, _, dcbStep_eq_next.mpr ⟨hraw, hfitsY, hfitsAcc, rfl, rfl⟩, toInt_wide hfitsAcc, ?_⟩
  rw [← dcbOut_eq, dcbOut, toInt_wide (fitsWide_asr 12 hfitsY)]

/-- R96: the range of `y`, from the ranges of the widened sample and of ACC. -/
theorem dcbY_bounds {raw : Nat} {acc : Wide} (hraw : raw ≤ maxSample) (hacc : AccInRange acc) :
    -268369920 ≤ dcbY raw acc ∧ dcbY raw acc ≤ 268369920 := by
  have hwide := wideSample_bounds hraw
  simp only [AccInRange, dcbY, accMin, accMax] at *
  omega

/-- R95: from an ACC in its range an in-contract step answers. -/
theorem dcbStep_of_accInRange {raw : Nat} (n : Nat) {acc : Wide} (hraw : raw ≤ maxSample) (hacc : AccInRange acc) :
    dcbStep raw n acc = .next (wide (dcbAcc raw n acc), wide (dcbOut raw acc)) := by
  have hy := dcbY_bounds hraw hacc
  have hwide := wideSample_bounds hraw
  have hbetween := dcbAcc_between raw n acc
  refine dcbStep_eq_next.mpr ⟨hraw, (fitsWide_iff _).mpr ?_, (fitsWide_iff _).mpr ?_, rfl, rfl⟩
  · omega
  · simp only [AccInRange, accMin, accMax] at *
    omega

/-- Settles O20: the step answers, and the lemmas on its ranges and on the new ACC apply. -/
theorem dcbStepKeepsItsRanges : Obligations.DcbStepKeepsItsRanges := by
  intro raw n acc hraw hacc
  have hstep := dcbStep_of_accInRange n hraw hacc
  obtain ⟨-, -, hfits, -, -⟩ := dcbStep_eq_next.mp hstep
  obtain ⟨ha, ho⟩ := dcbStep_keeps_ranges hstep hacc
  refine ⟨_, _, hstep, ha, ho, ?_⟩
  rw [toInt_wide hfits, ← wideSample_eq]
  exact dcbAcc_between raw n acc

/-! ### Constant input -/

/-- What is left of the DC blocker's `y` one step later under the same sample, with the leak shift 4 (R97). -/
def leakRest (y : Int) : Int := y - asr y 4

theorem leakRest_eq (y : Int) : leakRest y = y - y / 16 := rfl

theorem leakRest_monotone : Monotone leakRest := by
  intro y z h
  rw [leakRest_eq, leakRest_eq]
  omega

/-- R97: `y` rests once it is at most 15 and not negative. -/
theorem leakRest_eq_self {y : Int} (hlo : 0 ≤ y) (hhi : y ≤ 15) : leakRest y = y := by
  rw [leakRest_eq]
  omega

/-- The two ends of `y`'s range come to rest within 268 steps, and so, `leakRest` being monotone, does all between. -/
theorem leakRest_iterate_268 {y : Int} (hlo : -268369920 ≤ y) (hhi : y ≤ 268369920) :
    0 ≤ leakRest^[268] y ∧ leakRest^[268] y ≤ 15 := by
  have hmin : 0 ≤ leakRest^[268] (-268369920) := by decide +kernel
  have hmax : leakRest^[268] 268369920 ≤ 15 := by decide +kernel
  exact ⟨hmin.trans (leakRest_monotone.iterate 268 hlo), (leakRest_monotone.iterate 268 hhi).trans hmax⟩

theorem leakRest_iterate_of_le {y : Int} {k : Nat} (hlo : -268369920 ≤ y) (hhi : y ≤ 268369920) (hk : 268 ≤ k) :
    0 ≤ leakRest^[k] y ∧ leakRest^[k] y ≤ 15 := by
  have hrest := leakRest_iterate_268 hlo hhi
  obtain ⟨j, rfl⟩ := Nat.exists_eq_add_of_le' hk
  rw [Function.iterate_add_apply, Function.iterate_fixed (leakRest_eq_self hrest.1 hrest.2)]
  exact hrest

/-- Along a run over one constant sample `y` goes by `leakRest`. -/
theorem dcbY_of_run {raw : Nat} {accs outs : Nat → Wide}
    (hrun : ∀ k, dcbStep raw 4 (accs k) = .next (accs (k + 1), outs k)) (k : Nat) :
    dcbY raw (accs k) = leakRest^[k] (dcbY raw (accs 0)) := by
  induction k with
  | zero => rfl
  | succ k ih =>
    obtain ⟨-, -, hfits, hacc, -⟩ := dcbStep_eq_next.mp (hrun k)
    rw [Function.iterate_succ_apply', ← ih, hacc, dcbY, toInt_wide hfits, dcbAcc, leakRest]
    simp only [dcbY]
    omega

theorem asr_eq_zero {v : Int} {n : Nat} (hlo : 0 ≤ v) (hhi : v < 2 ^ n) : asr v n = 0 :=
  Int.ediv_eq_zero_of_lt hlo hhi

/-- Settles O22: from sample 268 on `y` lies in `[0, 15]`, where both shifts of it are 0. -/
theorem dcBlockerSettlesToZero : Obligations.DcBlockerSettlesToZero := by
  intro raw accs outs hraw hacc hrun k hk
  obtain ⟨hlo, hhi⟩ := dcbY_bounds hraw hacc
  have hrest := leakRest_iterate_of_le hlo hhi hk
  rw [← dcbY_of_run hrun k] at hrest
  obtain ⟨-, -, -, hacc', hout⟩ := dcbStep_eq_next.mp (hrun k)
  rw [dcbOut, asr_eq_zero hrest.1 (by omega)] at hout
  rw [dcbAcc, asr_eq_zero hrest.1 (by omega), add_zero] at hacc'
  exact ⟨hout, hacc'.trans (BitVec.ofInt_toInt)⟩

/-! ### The biquad from bounded registers -/

theorem fitsWide_of_abs_lt {v : Int} (h : |v| < 2 ^ 63) : fitsWide v = true := by
  rw [abs_lt] at h
  exact (fitsWide_iff v).mpr (by omega)

theorem abs_toInt_word_le (a : Word) : |a.toInt| ≤ 2 ^ 31 :=
  abs_le.mpr ⟨BitVec.le_toInt a, (BitVec.toInt_lt (x := a)).le⟩

/-- A product of a coefficient register and a bounded value. -/
theorem abs_coefficient_mul_le (a : Word) {v b : Int} (h : |v| ≤ b) : |a.toInt * v| ≤ 2 ^ 31 * b := by
  rw [abs_mul]
  exact mul_le_mul (abs_toInt_word_le a) h (abs_nonneg v) (by norm_num)

/-- The delay line lies in the range for which R105 calls every coefficient quadruple safe. -/
def DelayLineBounded (f : FilterState) : Prop := ∀ v ∈ [f.x1, f.x2, f.y1, f.y2], |v.toInt| ≤ 2 ^ 29

/-- R105's sufficient condition, for every coefficient quadruple: the products are at most `2^60`, the one of the
difference `2^61`, and so the sum is below `2^63`. -/
theorem bqFits_of_bounded {f : FilterState} {x : Wide} (c : FilterConfiguration) (hline : DelayLineBounded f)
    (hx : |x.toInt| ≤ 2 ^ 29) : bqFits c f x = true := by
  simp only [DelayLineBounded, List.forall_mem_cons] at hline
  obtain ⟨hx1, hx2, hy1, hy2, -⟩ := hline
  have hdiff : |bqDiff f| ≤ 2 ^ 30 := (abs_sub _ _).trans (by omega)
  have hp0 := abs_coefficient_mul_le c.cb0 hx
  have hp1 := abs_coefficient_mul_le c.cb1 hdiff
  have hp2 := abs_coefficient_mul_le c.cb2 hx2
  have hp3 := abs_coefficient_mul_le c.ca2 hy2
  have hsum : |bqSum c f x| < 2 ^ 63 := by
    rw [bqSum, abs_lt]
    rw [abs_le] at hp0 hp1 hp2 hp3
    omega
  have hfits := fitsWide_of_abs_lt hsum
  exact bqFits_iff.mpr ⟨fitsWide_of_abs_lt (by omega), fitsWide_of_abs_lt (by omega), fitsWide_of_abs_lt (by omega),
    fitsWide_of_abs_lt (by omega), fitsWide_of_abs_lt (by omega), hfits, fitsWide_asr 13 hfits⟩

/-! ### Mid-scale input -/

/-- R97: at ACC 0 a mid-scale sample has `y` 0. -/
theorem dcbStep_zero_midScale : dcbStep 2048 leakShift 0 = .next (0, 0) :=
  dcbStep_eq_next.mpr ⟨by decide, by decide, by decide, by decide, by decide⟩

/-- R108 (a): from the zero state and the input 0 every term of the sum is 0, whatever the coefficients. -/
theorem bqStep_zero (c : FilterConfiguration) : bqStep c FilterState.zero 0 = .next (FilterState.zero, 0) := by
  have hline : DelayLineBounded FilterState.zero := by simp [DelayLineBounded, FilterState.zero]
  have hfits : bqFits c FilterState.zero 0 = true := bqFits_of_bounded c hline (by decide)
  have hsum : bqSum c FilterState.zero 0 = 0 := by simp [bqSum, bqDiff, FilterState.zero]
  have hy : bqY c FilterState.zero 0 = 0 := by rw [bqY, hsum]; rfl
  exact bqStep_eq_next.mpr ⟨hfits, by rw [bqShift, hy]; rfl, hy.symm⟩

theorem sampleStep_zero_midScale (c : FilterConfiguration) :
    sampleStep c FilterState.zero 2048 = .next (FilterState.zero, 0) :=
  sampleStep_eq_next.mpr ⟨0, 0, 0, dcbStep_zero_midScale, bqStep_zero c, by decide⟩

/-- Settles O42, by induction on the number of samples. -/
theorem midScaleInputIsSilent : Obligations.MidScaleInputIsSilent := by
  intro c n
  induction n with
  | zero => rfl
  | succ n ih =>
    have hstep : sampleStep c ⟨0, 0, 0, 0, 0⟩ (2048 : Half).toNat = .next (⟨0, 0, 0, 0, 0⟩, 0) :=
      sampleStep_zero_midScale c
    rw [List.replicate_succ, filterRun_cons, hstep, andThen_next, ih, andThen_next, List.replicate_succ]

/-! ### One sample -/

/-- R110's clamp, its upper bound first. -/
theorem sat16_eq (v : Int) : sat16 v = if v > 32767 then 32767 else if v < -32767 then -32767 else v := by
  unfold sat16 clamp
  split <;> split <;> omega

/-- R100's `y` in the spec's numbers. -/
theorem bqY_eq (c : FilterConfiguration) (f : FilterState) (x : Wide) :
    bqY c f x = Int.fdiv (c.cb0.toInt * x.toInt + c.cb1.toInt * (f.x1.toInt - f.y1.toInt) + c.cb2.toInt * f.x2.toInt -
      c.ca2.toInt * f.y2.toInt) 8192 :=
  asr_eq_fdiv (bqSum c f x) 13

/-- R112 from an ACC in its range and a bounded delay line: the sample step answers, and every
register it writes reads back as the integer written. -/
theorem sampleStep_of_bounded {f : FilterState} {raw : Nat} (c : FilterConfiguration) (hraw : raw ≤ maxSample)
    (hacc : AccInRange f.acc) (hline : DelayLineBounded f) :
    ∃ f', sampleStep c f raw = .next (f', outElement (sat16 (bqY c f f'.x1))) ∧
      f'.acc.toInt = dcbAcc raw leakShift f.acc ∧ f'.x1.toInt = dcbOut raw f.acc ∧ f'.x2 = f.x1 ∧
      f'.y1.toInt = bqY c f f'.x1 ∧ f'.y2 = f.y1 := by
  have hdcb := dcbStep_of_accInRange leakShift hraw hacc
  obtain ⟨-, hfitsY, hfitsAcc, -, -⟩ := dcbStep_eq_next.mp hdcb
  obtain ⟨-, hlo, hhi⟩ := dcbStep_keeps_ranges hdcb hacc
  have hx : |(wide (dcbOut raw f.acc)).toInt| ≤ 2 ^ 29 := by
    simp only [dcbOutMax] at hlo hhi
    exact abs_le.mpr (by omega)
  have hbq := bqFits_of_bounded (f := { f with acc := wide (dcbAcc raw leakShift f.acc) }) c hline hx
  obtain ⟨-, -, -, -, -, -, hfitsBq⟩ := bqFits_iff.mp hbq
  exact ⟨_, sampleStep_eq_next.mpr ⟨_, _, _, hdcb, bqStep_eq_next.mpr ⟨hbq, rfl, rfl⟩, rfl⟩, toInt_wide hfitsAcc,
    toInt_wide (fitsWide_asr 12 hfitsY), rfl, toInt_wide hfitsBq, rfl⟩

/-- R44 for the first element of a buffer. -/
theorem elemAt_zero_toNat (m : Mem) (base : Nat) :
    (elemAt m base 0).toNat = (m.byteAt base).toNat + 256 * (m.byteAt (base + 1)).toNat := by
  have hbytes : elemAt m base 0 = (m.byteAt (base + 1) ++ m.byteAt base : BitVec 16) := rfl
  rw [hbytes, toNat_append_eq_add]
  omega

/-- R115 for one sample: over buffers that pass the checks `PROC` is the sample step of the one element. -/
theorem exec_proc_of_one {s : State} {c : FilterConfiguration} {out inp count : Word} {f : FilterState} {o : Half}
    (hc : ConfiguredWith s c) (hm : Mem.wf s.mem = true) (hcount : count.toInt = 1)
    (hbuf : BuffersOk s.regions out.toNat inp.toNat 1)
    (hsample : sampleStep c s.filter (elemAt s.mem inp.toNat 0).toNat = .next (f, o)) :
    ∃ m, exec (.proc out inp count) s = .next { s with filter := f, mem := m, mode := .running, pc := s.pc + 4 } ∧
      elemAt m out.toNat 0 = o := by
  have hwrite := memWrite16_eq (m := s.mem) (v := o) (a := elemAddr out.toNat 0) (Nat.lt_of_succ_le hbuf.outInSpace)
  have hread := memRead16_eq (m := s.mem) (a := elemAddr inp.toNat 0) (Nat.lt_of_succ_le hbuf.inpInSpace)
  have hloop := procLoop_succ_eq_next.mpr ⟨_, (f, o), _, hread, hsample, hwrite, procLoop_zero c _ _ _ _ _⟩
  have hdevice := touchesDevice_eq_false.mpr ⟨hbuf.inpOrdinary, hbuf.outOrdinary⟩
  obtain ⟨-, -, hlo, hhi, -⟩ := memWrite16_spec hm hwrite
  refine ⟨_, ?_, (congrArg₂ (· ++ ·) hhi hlo).trans (half_of_bytes o)⟩
  rw [exec_proc_of_checksPass hc hcount Nat.one_pos hbuf.toChecksPass, hdevice, hloop]
  rfl

/-- Settles O35: the command is its one sample step, whose values all fit their registers. -/
theorem procOfOneSampleInIntegers : Obligations.ProcOfOneSampleInIntegers := by
  intro s c out inp count raw yd d y hc hm hcount hbuf hacc hline hraw hrange hyd hd hy
  have hbounded : DelayLineBounded s.filter := fun v hv => (abs_lt.mpr (hline v hv)).le
  have helem : (elemAt s.mem inp.toNat 0).toNat = raw := (elemAt_zero_toNat s.mem inp.toNat).trans hraw.symm
  obtain ⟨f, hsample, hfacc, hfx1, hfx2, hfy1, hfy2⟩ := sampleStep_of_bounded c hrange hacc hbounded
  have hyd' : dcbY raw s.filter.acc = yd := (dcbY_eq raw s.filter.acc).trans hyd.symm
  have hd' : f.x1.toInt = d := by rw [hfx1, dcbOut_eq, hyd', hd]
  have hy' : bqY c s.filter f.x1 = y := by rw [bqY_eq, hd', hy]
  rw [← helem] at hsample
  obtain ⟨m, hexec, hout⟩ := exec_proc_of_one hc hm hcount hbuf hsample
  refine ⟨_, hexec, rfl, rfl, rfl, ?_, hd', hfx2, hfy1.trans hy', hfy2, ?_⟩
  · rw [hfacc, dcbAcc_eq, hyd']
    rfl
  · rw [hout, outElement_sat16_toInt, hy', sat16_eq]

end Sys2Proof.Proofs
end

section
/-! SUPPORT. The biquad in integers, what it refuses, its behaviour with `ROM[3]`, and why a `PROC` with `ROM[3]` always
completes (spec/42_biquad.md). -/

namespace Sys2Proof.Proofs

open Sys2Proof.Machine Sys2Proof.Safety Sys2Proof.Laws

/-! ### When the biquad answers -/

/-- The values of a step that R105 and notes/assumptions/11.md check: the difference, the four products and the sum. -/
def bqChecked (c : FilterConfiguration) (f : FilterState) (x : Wide) : List Int :=
  [bqDiff f, c.cb0.toInt * x.toInt, c.cb1.toInt * bqDiff f, c.cb2.toInt * f.x2.toInt, c.ca2.toInt * f.y2.toInt,
    bqSum c f x]

/-- R105: a step answers exactly if the checked values fit; `y`, a shift of the sum, fits with it. -/
theorem bqFits_iff_bqChecked {c : FilterConfiguration} {f : FilterState} {x : Wide} :
    bqFits c f x = true ↔ ∀ v ∈ bqChecked c f x, fitsWide v = true := by
  simp only [bqFits_iff, bqChecked, List.forall_mem_cons, List.not_mem_nil, false_implies, implies_true, and_true]
  constructor
  · rintro ⟨hdiff, hp0, hp1, hp2, hp3, hsum, -⟩
    exact ⟨hdiff, hp0, hp1, hp2, hp3, hsum⟩
  · rintro ⟨hdiff, hp0, hp1, hp2, hp3, hsum⟩
    exact ⟨hdiff, hp0, hp1, hp2, hp3, hsum, fitsWide_asr 13 hsum⟩

theorem bqStep_of_bqFits {c : FilterConfiguration} {f : FilterState} {x : Wide} (h : bqFits c f x = true) :
    bqStep c f x = .next (bqShift c f x, bqY c f x) :=
  bqStep_eq_next.mpr ⟨h, rfl, rfl⟩

/-- R105: one checked value that does not fit refuses the step. -/
theorem bqStep_refused_of_bqChecked {c : FilterConfiguration} {f : FilterState} {x : Wide} {v : Int}
    (hv : v ∈ bqChecked c f x) (hover : v < -(2 ^ 63) ∨ 2 ^ 63 ≤ v) : bqStep c f x = .refused .wideOverflow := by
  refine if_neg fun hfits => ?_
  have hfit : fitsWide v = true := bqFits_iff_bqChecked.mp hfits v hv
  rw [(fitsWide_eq_false_iff v).mpr hover] at hfit
  exact Bool.false_ne_true hfit

/-- R100's `y` as a floor of the model's sum. -/
theorem bqY_eq_fdiv_bqSum (c : FilterConfiguration) (f : FilterState) (x : Wide) :
    bqY c f x = Int.fdiv (bqSum c f x) 8192 :=
  asr_eq_fdiv (bqSum c f x) 13

/-- Settles O23: the given values are the checked ones, so the step answers, and `y` reads back from Y1. -/
theorem bqStepComputes : Obligations.BqStepComputes := by
  rintro c f x _ _ rfl rfl hvalues
  have hfits : bqFits c f x = true := bqFits_iff_bqChecked.mpr fun v hv => by
    obtain ⟨hlo, hhi⟩ := hvalues v hv
    exact (fitsWide_iff v).mpr ⟨hlo, Int.le_sub_one_of_lt hhi⟩
  obtain ⟨-, -, -, -, -, -, hy⟩ := bqFits_iff.mp hfits
  rw [← bqY_eq]
  exact ⟨_, bqStep_of_bqFits hfits, toInt_wide hy, rfl, rfl, rfl, rfl⟩

theorem delayLineBounded_iff {f : FilterState} :
    DelayLineBounded f ↔
      |f.x1.toInt| ≤ 2 ^ 29 ∧ |f.x2.toInt| ≤ 2 ^ 29 ∧ |f.y1.toInt| ≤ 2 ^ 29 ∧ |f.y2.toInt| ≤ 2 ^ 29 := by
  simp only [DelayLineBounded, List.forall_mem_cons, List.not_mem_nil, false_implies, implies_true, and_true]

/-- Settles O24: the bounds are those of a bounded delay line and input. -/
theorem bqStepFitsBelowTwoPow29 : Obligations.BqStepFitsBelowTwoPow29 := by
  intro c f x hvalues
  obtain ⟨hx, hline⟩ := List.forall_mem_cons.mp hvalues
  have hbounded : DelayLineBounded f := fun v hv => (abs_lt.mpr (hline v hv)).le
  exact ⟨_, _, bqStep_of_bqFits (bqFits_of_bounded c hbounded (abs_lt.mpr hx).le)⟩

/-- Settles O25: the sum is a checked value. -/
theorem bqSumOverflowIsRefused : Obligations.BqSumOverflowIsRefused := by
  rintro c f x _ rfl hover
  have hmem : bqSum c f x ∈ bqChecked c f x := by simp [bqChecked]
  exact bqStep_refused_of_bqChecked hmem hover

/-- Settles O57: the difference and the products are the checked values before the sum. -/
theorem bqIntermediateOverflowIsRefused : Obligations.BqIntermediateOverflowIsRefused := by
  rintro c f x _ rfl ⟨v, hv, hover⟩
  have hmem : v ∈ bqChecked c f x := List.mem_append_left [bqSum c f x] hv
  exact bqStep_refused_of_bqChecked hmem hover

/-! ### The biquad with `ROM[3]` -/

/-- R82: the coefficient registers under profile 3, as integers. -/
theorem profile3_toInt :
    profile3.ca2.toInt = 7739 ∧ profile3.cb0.toInt = 8125 ∧ profile3.cb1.toInt = -14718 ∧
      profile3.cb2.toInt = 7805 := by
  decide

/-- R100's sum with the coefficients of `ROM[3]`. -/
theorem bqSum_profile3 (f : FilterState) (x : Wide) :
    bqSum profile3 f x =
      8125 * x.toInt - 14718 * (f.x1.toInt - f.y1.toInt) + 7805 * f.x2.toInt - 7739 * f.y2.toInt := by
  obtain ⟨ha2, hb0, hb1, hb2⟩ := profile3_toInt
  rw [bqSum, bqDiff, ha2, hb0, hb1, hb2]
  ring

/-- Settles O26: the bounds are linear arithmetic on the four products, and R105's condition holds with room to
spare. -/
theorem profile3SumFits32BitsWhenSmall : Obligations.Profile3SumFits32BitsWhenSmall := by
  intro f x hvalues
  have hvalues' : ∀ v ∈ [x, f.x1, f.x2, f.y1, f.y2], |v.toInt| ≤ 2 ^ 29 := fun v hv =>
    (abs_le.mpr (hvalues v hv)).trans (by norm_num)
  obtain ⟨hx, hline⟩ := List.forall_mem_cons.mp hvalues'
  have hstep := bqStep_of_bqFits (bqFits_of_bounded profile3 hline hx)
  rw [bqY_eq_fdiv_bqSum] at hstep
  refine ⟨_, _, _, _, rfl, rfl, rfl, rfl, rfl, ?_⟩
  rw [← and_assoc, ← and_assoc]
  refine ⟨?_, _, hstep⟩
  obtain ⟨ha2, hb0, hb1, hb2⟩ := profile3_toInt
  simp only [bqSum_profile3, bqDiff, ha2, hb0, hb1, hb2, List.forall_mem_cons, List.not_mem_nil, false_implies,
    implies_true, and_true] at hvalues ⊢
  omega

/-- Settles O27: the sum is `6979 v`, whose floor over 8192 is `v` exactly if `-1213 v` lies in `[0, 8192)`. -/
theorem zeroInputRestsFromMinus6To0 : Obligations.ZeroInputRestsFromMinus6To0 := by
  intro acc v hlo hhi
  have hv : |v.toInt| ≤ 2 ^ 29 := (abs_lt.mpr ⟨hlo, hhi⟩).le
  have hzero : |(0 : Wide).toInt| ≤ 2 ^ 29 := by decide
  have hline : DelayLineBounded ⟨acc, 0, 0, v, v⟩ := delayLineBounded_iff.mpr ⟨hzero, hzero, hv, hv⟩
  refine ⟨_, _, bqStep_of_bqFits (bqFits_of_bounded profile3 hline hzero), ?_⟩
  have hsum : bqSum profile3 ⟨acc, 0, 0, v, v⟩ 0 = 6979 * v.toInt := by
    have hinput : (0 : Wide).toInt = 0 := rfl
    rw [bqSum_profile3, hinput]
    ring
  have hfloor := asr_spec (6979 * v.toInt) 13
  rw [bqY, hsum]
  omega

/-- Settles O28, by evaluating the sixteen samples from the one state the spec gives. -/
theorem limitCycleAfterConstant4095 : Obligations.LimitCycleAfterConstant4095 := by
  unfold Obligations.LimitCycleAfterConstant4095
  rfl

/-! ### The quadratic form of the delay line (notes/assumptions/16.md) -/

/-- A step of the recurrence `8192 z' = 14718 z - 7739 z₁ + w` on the quadratic form, exactly: it shrinks by
`7739/8192`, up to terms of the disturbance `w`. -/
theorem feedbackForm_step {f f' : FilterState} {w : Int} (hy2 : f'.y2 = f.y1)
    (hy1 : 8192 * f'.y1.toInt = 14718 * f.y1.toInt - 7739 * f.y2.toInt + w) :
    8192 * feedbackForm f' =
      7739 * feedbackForm f + w * (14718 * f.y1.toInt - 15478 * f.y2.toInt) + w ^ 2 := by
  rw [feedbackForm, feedbackForm, hy2]
  linear_combination (8192 * f'.y1.toInt - 7739 * f.y2.toInt + w) * hy1

/-- The form, completed to a square in Y1. -/
theorem feedbackForm_eq_square_y1 (f : FilterState) :
    30956 * feedbackForm f = (14718 * f.y1.toInt - 15478 * f.y2.toInt) ^ 2 + 36972028 * f.y1.toInt ^ 2 := by
  rw [feedbackForm]
  ring

/-- The form, completed to a square in Y2. -/
theorem feedbackForm_eq_square_y2 (f : FilterState) :
    32768 * feedbackForm f = (16384 * f.y1.toInt - 14718 * f.y2.toInt) ^ 2 + 36972028 * f.y2.toInt ^ 2 := by
  rw [feedbackForm]
  ring

/-- What a form of at most `2^61` says of the outputs, and of the value that meets the disturbance in a step. -/
theorem abs_le_of_feedbackForm_le {f : FilterState} (h : feedbackForm f ≤ 2 ^ 61) :
    |f.y1.toInt| ≤ 2 ^ 29 ∧ |f.y2.toInt| ≤ 2 ^ 29 ∧ |14718 * f.y1.toInt - 15478 * f.y2.toInt| ≤ 2 ^ 38 := by
  have h1 := feedbackForm_eq_square_y1 f
  have h2 := feedbackForm_eq_square_y2 f
  have hy1 := sq_nonneg f.y1.toInt
  have hcross1 := sq_nonneg (14718 * f.y1.toInt - 15478 * f.y2.toInt)
  have hcross2 := sq_nonneg (16384 * f.y1.toInt - 14718 * f.y2.toInt)
  exact ⟨abs_le_of_sq_le_sq (by linarith) (by norm_num), abs_le_of_sq_le_sq (by linarith) (by norm_num),
    abs_le_of_sq_le_sq (by linarith) (by norm_num)⟩

/-- Under a disturbance of at most `2^31` the bound `2^61` of the form is kept: what the form loses, `453/8192` of it,
is more than the disturbance adds. -/
theorem feedbackForm_step_le {f f' : FilterState} {w : Int} (hy2 : f'.y2 = f.y1)
    (hy1 : 8192 * f'.y1.toInt = 14718 * f.y1.toInt - 7739 * f.y2.toInt + w) (hw : |w| ≤ 2 ^ 31)
    (h : feedbackForm f ≤ 2 ^ 61) : feedbackForm f' ≤ 2 ^ 61 := by
  obtain ⟨-, -, hcross⟩ := abs_le_of_feedbackForm_le h
  have hstep := feedbackForm_step hy2 hy1
  have hmixed : w * (14718 * f.y1.toInt - 15478 * f.y2.toInt) ≤ 2 ^ 31 * 2 ^ 38 :=
    (le_abs_self _).trans ((abs_mul _ _).trans_le (mul_le_mul hw hcross (abs_nonneg _) (by norm_num)))
  have hsquare : w ^ 2 ≤ (2 ^ 31) ^ 2 := sq_le_sq' (abs_le.mp hw).1 (abs_le.mp hw).2
  linarith

/-- R101, R102 with `ROM[3]`: the new output is the feedback of the old ones and a disturbance, the input's part of the
sum less what the floor cuts off, which is below `2^31` for inputs in their range. -/
theorem exists_disturbance {f : FilterState} {x : Wide} (hx : InputInRange x) (hx1 : InputInRange f.x1)
    (hx2 : InputInRange f.x2) :
    ∃ w : Int, |w| ≤ 2 ^ 31 ∧ 8192 * bqY profile3 f x = 14718 * f.y1.toInt - 7739 * f.y2.toInt + w := by
  have hfloor := asr_spec (bqSum profile3 f x) 13
  have hsum := bqSum_profile3 f x
  refine ⟨8192 * bqY profile3 f x - (14718 * f.y1.toInt - 7739 * f.y2.toInt), abs_le.mpr ?_, by ring⟩
  simp only [InputInRange, dcbOutMax, bqY] at *
  omega

/-! ### `PROC` with `ROM[3]` -/

theorem delayLineBounded_of_profile3Bounded {f : FilterState} (h : Profile3Bounded f) : DelayLineBounded f := by
  obtain ⟨hy1, hy2, -⟩ := abs_le_of_feedbackForm_le h.feedback
  have hinput : ∀ {v : Wide}, InputInRange v → |v.toInt| ≤ 2 ^ 29 := fun hv => (abs_le.mpr hv).trans (by decide)
  exact delayLineBounded_iff.mpr ⟨hinput h.x1, hinput h.x2, hy1, hy2⟩

/-- R106: from a bounded FilterState an in-contract sample is answered and leaves one. -/
theorem sampleStep_of_profile3Bounded {f : FilterState} {raw : Nat} (hf : Profile3Bounded f) (hraw : raw ≤ maxSample) :
    ∃ f' o, sampleStep profile3 f raw = .next (f', o) ∧ Profile3Bounded f' := by
  have hline := delayLineBounded_of_profile3Bounded hf
  obtain ⟨f', hstep, -, -, -, hy1, hy2⟩ := sampleStep_of_bounded profile3 hraw hf.acc hline
  obtain ⟨hacc, hx1, hx2⟩ := sampleStep_keeps_filterInRange hstep ⟨hf.acc, hf.x1, hf.x2⟩
  obtain ⟨w, hw, hrec⟩ := exists_disturbance hx1 hf.x1 hf.x2
  rw [← hy1] at hrec
  exact ⟨f', _, hstep, hacc, hx1, hx2, feedbackForm_step_le hy2 hrec hw hf.feedback⟩

theorem filterRun_of_profile3Bounded {f : FilterState} {raws : List Half} (hf : Profile3Bounded f)
    (hraws : ∀ raw ∈ raws, raw.toNat ≤ maxSample) :
    ∃ f' outs, filterRun profile3 f raws = .next (f', outs) ∧ Profile3Bounded f' := by
  induction raws generalizing f with
  | nil => exact ⟨f, [], rfl, hf⟩
  | cons raw rest ih =>
    obtain ⟨hraw, hrest⟩ := List.forall_mem_cons.mp hraws
    obtain ⟨f₁, o, hstep, hf₁⟩ := sampleStep_of_profile3Bounded hf hraw
    obtain ⟨f', outs, hrun, hf'⟩ := ih hf₁ hrest
    exact ⟨f', o :: outs, by rw [filterRun_cons, hstep, andThen_next, hrun, andThen_next], hf'⟩

/-- R115: a configured `PROC` over ordinary buffers that pass the checks completes where the filter answers. -/
theorem exec_proc_of_filterRun {s : State} {c : FilterConfiguration} {out inp count : Word} {n : Nat} {f : FilterState}
    {outs : List Half} (hc : ConfiguredWith s c) (hcount : count.toInt = n) (hn : 0 < n)
    (hbuf : BuffersOk s.regions out.toNat inp.toNat n)
    (hrun : filterRun c s.filter (elems s.mem inp.toNat n) = .next (f, outs)) :
    exec (.proc out inp count) s =
      .next { s with filter := f, mem := writeElems s.mem out.toNat outs, mode := .running, pc := s.pc + 4 } := by
  have hdevice := touchesDevice_eq_false.mpr ⟨hbuf.inpOrdinary, hbuf.outOrdinary⟩
  have hnone := (bufferFault_eq_none_iff_checksPass hn).mpr hbuf.toChecksPass
  rw [exec_proc_of_checksPass hc hcount hn hbuf.toChecksPass, hdevice, procLoop_eq_filterRun_of_bufferFault hnone, hrun]
  rfl

/-- Settles O36, by induction on the samples with the bounded FilterState as the invariant. -/
theorem profile3NeverOverflows : Obligations.Profile3NeverOverflows := by
  intro s out inp count n hc _ hf hcount hn hbuf hraws
  have helems : ∀ raw ∈ elems s.mem inp.toNat n, raw.toNat ≤ maxSample :=
    List.forall_mem_map.mpr fun i hi => hraws i (List.mem_range.mp hi)
  obtain ⟨f', outs, hrun, hf'⟩ := filterRun_of_profile3Bounded hf helems
  exact ⟨_, exec_proc_of_filterRun hc hcount hn hbuf hrun, hf', rfl, rfl, rfl⟩

end Sys2Proof.Proofs
end

section
/-! SUPPORT. The clamp and the sample step, and the checks of `PROC` in their order (spec/43_pipeline.md). -/

namespace Sys2Proof.Proofs

open Sys2Proof.Machine Sys2Proof.Safety Sys2Proof.Laws

/-! ### Sat16 and SampleStep -/

/-- R111: the most negative pattern is no clamped value. -/
theorem outElement_sat16_ne_min (v : Int) : outElement (sat16 v) ≠ 0x8000 := by
  intro h
  have hvalue : (0x8000 : Half).toInt = sat16 v := h ▸ outElement_sat16_toInt v
  have hmin : (0x8000 : Half).toInt = -32768 := by decide
  have hbounds := sat16_bounds v
  omega

/-- Settles O29: a clamped value fits an element, and the two ends of the clamp have the patterns named. -/
theorem sat16Clamps : Obligations.Sat16Clamps := by
  intro v
  refine ⟨sat16_eq v, outElement_sat16_toInt v, outElement_sat16_ne_min v, fun hv => ?_, fun hv => ?_⟩
  · have hsat : sat16 v = 32767 := by rw [sat16_eq]; split <;> omega
    rw [hsat]
    rfl
  · have hsat : sat16 v = -32767 := by rw [sat16_eq, if_neg (by omega)]; split <;> omega
    rw [hsat]
    rfl

/-- Settles O30: the sample step that answers is its two stages, of which the biquad keeps ACC and stores the unclamped
`y`; the DC blocker's test of the sample comes before both. -/
theorem sampleStepClampsOnlyTheOutput : Obligations.SampleStepClampsOnlyTheOutput := by
  constructor
  · intro c f f' raw a d y hdcb hbq
    have hsample := sampleStep_eq_next.mpr ⟨a, d, y, hdcb, hbq, rfl⟩
    obtain ⟨hfits, rfl, rfl⟩ := bqStep_eq_next.mp hbq
    obtain ⟨-, -, -, -, -, -, hfitsY⟩ := bqFits_iff.mp hfits
    exact ⟨_, hsample, rfl, toInt_wide hfitsY, (outElement_sat16_toInt _).trans (sat16_eq _)⟩
  · intro c f raw hraw
    rw [sampleStep, sampleAboveContractIsRefused raw leakShift f.acc hraw, andThen_refused]

/-! ### The buffer checks in their order -/

section Checks

variable {map : List Region} {out inp n : Nat}

theorem bufferFault_of_odd (hn : 0 < n) (h : out % 2 = 1 ∨ inp % 2 = 1) :
    bufferFault map out inp n = some .misalignedBuffer := by
  rw [bufferFault, if_neg hn.ne', if_pos (by omega)]

theorem bufferFault_of_past_space (hn : 0 < n) (hout : out % 2 = 0) (hinp : inp % 2 = 0)
    (h : addressLimit < out + 2 * n ∨ addressLimit < inp + 2 * n) :
    bufferFault map out inp n = some .addressRange := by
  rw [bufferFault, if_neg hn.ne', if_neg (by omega), if_pos h]

/-- Aligned buffers inside the address space: what is left of the checks (R119, checks 4 and 5). -/
theorem bufferFault_of_inside (hn : 0 < n) (hout : out % 2 = 0) (hinp : inp % 2 = 0)
    (houtSpace : out + 2 * n ≤ addressLimit) (hinpSpace : inp + 2 * n ≤ addressLimit) :
    bufferFault map out inp n =
      if rangesMeet out inp (2 * n) then some .bufferOverlap
      else if rangeAll (memValid map .read) inp (2 * n) && rangeAll (memValid map .write) out (2 * n) then none
      else some .busError := by
  rw [bufferFault, if_neg hn.ne', if_neg (by omega), if_neg (by omega)]

theorem rangeAll_eq_false {p : Nat → Bool} {base len a : Nat} (hlo : base ≤ a) (hhi : a < base + len)
    (ha : p a = false) : rangeAll p base len = false := by
  rw [← Bool.not_eq_true, rangeAll_iff]
  intro h
  exact Bool.false_ne_true (ha.symm.trans (h a hlo hhi))

end Checks

/-! ### When `PROC` reaches its loop -/

section Proc

variable {s : State} {c : FilterConfiguration} {out inp count : Word} {n : Nat}

theorem exec_proc_of_uninitialized (h : s.mode = .uninitialized) :
    exec (.proc out inp count) s = .next { s with cause := some .notConfigured } := by
  have hinactive := activeConfig_uninitialized s h
  simp only [exec, execProc, hinactive, raise_eq]

/-- R119: a configured `PROC` whose buffers fail a check faults with that check's cause. -/
theorem exec_proc_of_bufferFault {cause : Cause} (hc : ConfiguredWith s c) (hcount : sampleCount count = n)
    (hfault : bufferFault s.regions out.toNat inp.toNat n = some cause) :
    exec (.proc out inp count) s = .next { s with cause := some cause } := by
  have hactive := (activeConfig_eq_some_iff s c).mpr hc
  simp only [exec, execProc, hactive, procBuffers, zext32, hcount, hfault, raise_eq]

/-- R115: a configured `PROC` that no check stops is its loop, also where there is nothing to check (R116). -/
theorem exec_proc_of_passed (hc : ConfiguredWith s c) (hcount : sampleCount count = n)
    (hnone : bufferFault s.regions out.toNat inp.toNat n = none)
    (hdevice : touchesDevice s.regions out.toNat inp.toNat n = false) :
    exec (.proc out inp count) s =
      andThen (procLoop c out.toNat inp.toNat n 0 s.filter s.mem) fun r =>
      .next { s with filter := r.1, mem := r.2, mode := .running, pc := s.pc + 4 } := by
  have hactive := (activeConfig_eq_some_iff s c).mpr hc
  simp only [exec, execProc, hactive, procBuffers, zext32, hcount, hnone, hdevice, complete_eq, Bool.false_eq_true,
    if_false]

theorem exec_proc_of_sampleCount_eq_zero (hc : ConfiguredWith s c) (hcount : sampleCount count = 0) :
    exec (.proc out inp count) s = .next { s with mode := .running, pc := s.pc + 4 } := by
  rw [exec_proc_of_passed hc hcount (bufferFault_zero _ _ _) rfl, procLoop_zero, andThen_next]

theorem sampleCount_eq_zero (h : count.toInt ≤ 0) : sampleCount count = 0 :=
  Int.toNat_of_nonpos h

end Proc

/-- Settles O31: with no samples there is no check but that of the mode, and the loop makes no turn. -/
theorem procOfNoSamplesOnlyRuns : Obligations.ProcOfNoSamplesOnlyRuns :=
  fun _ _ _ _ hcount =>
    ⟨fun _ hc => exec_proc_of_sampleCount_eq_zero hc (sampleCount_eq_zero hcount), exec_proc_of_uninitialized⟩

/-- Settles O32: a check's case has the checks before it passed, so `bufferFault` answers that check's cause. -/
theorem procFaultsInOrder : Obligations.ProcFaultsInOrder := by
  intro s out inp count faults o i len
  refine ⟨exec_proc_of_uninitialized, fun c hc hcount => (procOfNoSamplesOnlyRuns s out inp count hcount).1 c hc,
    fun c hc hpos => ?_⟩
  obtain ⟨n, hcount⟩ := Int.eq_ofNat_of_zero_le hpos.le
  have hn : 0 < n := by omega
  have hfaults {cause : Cause} (h : bufferFault s.regions out.toNat inp.toNat n = some cause) : faults cause :=
    exec_proc_of_bufferFault hc (sampleCount_eq_of_toInt hcount) h
  have hlen : len = 2 * (n : Int) := by simp only [len, hcount]
  have hlimit : addressLimit = 2 ^ 32 := rfl
  simp only [hlen, o, i]
  refine ⟨fun hodd => hfaults (bufferFault_of_odd hn (by omega)), fun hout hinp =>
    ⟨fun hpast => hfaults (bufferFault_of_past_space hn (by omega) (by omega) (by omega)), fun houtSpace hinpSpace => ?_⟩⟩
  have hinside := bufferFault_of_inside (map := s.regions) (out := out.toNat) (inp := inp.toNat) hn (by omega) (by omega)
    (by omega) (by omega)
  constructor
  · intro hmeet
    have hmeets : rangesMeet out.toNat inp.toNat (2 * n) = true := by
      rw [← Bool.not_eq_false, rangesMeet_eq_false_iff]
      omega
    exact hfaults (by rw [hinside, if_pos hmeets])
  · intro hapart hinvalid
    have hmeets : rangesMeet out.toNat inp.toNat (2 * n) = false := rangesMeet_eq_false_iff.mpr (by omega)
    refine hfaults ?_
    rw [hinside, hmeets]
    obtain ⟨a, ⟨hlo, hhi, ha⟩ | ⟨hlo, hhi, ha⟩⟩ := hinvalid
    · rw [rangeAll_eq_false (by omega) (by omega) ha]
      rfl
    · rw [rangeAll_eq_false (base := out.toNat) (by omega) (by omega) ha, Bool.and_false]
      rfl

end Sys2Proof.Proofs
end

section
/-! SUPPORT. What the output buffer of `PROC` holds, and the loop of `PROC` cut in two (spec/43_pipeline.md). -/

namespace Sys2Proof.Proofs

open Sys2Proof.Machine Sys2Proof.Safety Sys2Proof.Laws

/-! ### The elements written -/

theorem writeElems_cons {m m' : Mem} {base : Nat} {v : Half} (vs : List Half) (hwrite : memWrite16 m base v = .next m') :
    writeElems m base (v :: vs) = writeElems m' (base + 2) vs := by
  obtain ⟨hspace, -⟩ := memWrite16_frame hwrite
  rw [memWrite16_eq hspace] at hwrite
  cases hwrite
  rfl

/-- Writing elements leaves every byte outside them alone. -/
theorem writeElems_byteAt_outside {m : Mem} {base a : Nat} {vs : List Half}
    (ha : a < base ∨ base + 2 * vs.length ≤ a) : (writeElems m base vs).byteAt a = m.byteAt a := by
  induction vs generalizing m base with
  | nil => rfl
  | cons v vs ih =>
    rw [List.length_cons] at ha
    rw [writeElems, ih (by omega), Mem_byteAt_put_other (by omega), Mem_byteAt_put_other (by omega)]

theorem elemAt_zero (m : Mem) (base : Nat) : elemAt m base 0 = (m.byteAt (base + 1) ++ m.byteAt base : BitVec 16) := rfl

/-- Elements written inside the address space read back in order, and memory stays canonical. -/
theorem writeElems_spec {m : Mem} {base : Nat} {vs : List Half} (hm : m.wf = true)
    (hspace : base + 2 * vs.length ≤ addressLimit) :
    (writeElems m base vs).wf = true ∧ elems (writeElems m base vs) base vs.length = vs := by
  induction vs generalizing m base with
  | nil => exact ⟨hm, rfl⟩
  | cons v vs ih =>
    rw [List.length_cons] at hspace
    have hwrite := memWrite16_eq (m := m) (v := v) (a := base) (by omega)
    obtain ⟨-, hwf, hlo, hhi, -⟩ := memWrite16_spec hm hwrite
    obtain ⟨hwf', helems⟩ := ih (base := base + 2) hwf (by omega)
    have hfirst : elemAt (writeElems m base (v :: vs)) base 0 = v := by
      rw [writeElems_cons vs hwrite, elemAt_zero, writeElems_byteAt_outside (by omega),
        writeElems_byteAt_outside (by omega), hlo, hhi, half_of_bytes]
    rw [List.length_cons, elems_succ, hfirst, writeElems_cons vs hwrite, helems]
    exact ⟨hwf', rfl⟩

theorem elems_length (m : Mem) (base n : Nat) : (elems m base n).length = n := by
  rw [elems, List.length_map, List.length_range]

theorem elemAt_mem_elems (m : Mem) (base : Nat) {n i : Nat} (hi : i < n) : elemAt m base i ∈ elems m base n :=
  List.mem_map_of_mem (List.mem_range.mpr hi)

/-! ### The filter's outputs -/

theorem filterRun_cons_eq_next {c : FilterConfiguration} {f : FilterState} {raw : Half} {rest : List Half}
    {q : FilterState × List Half} (h : filterRun c f (raw :: rest) = .next q) :
    ∃ r q', sampleStep c f raw.toNat = .next r ∧ filterRun c r.1 rest = .next q' ∧ q = (q'.1, r.2 :: q'.2) := by
  rw [filterRun_cons] at h
  obtain ⟨r, hsample, h⟩ := andThen_eq_next.mp h
  obtain ⟨q', hrest, ⟨⟩⟩ := andThen_eq_next.mp h
  exact ⟨r, q', hsample, hrest, rfl⟩

/-- One output for every sample. -/
theorem filterRun_length {c : FilterConfiguration} {f : FilterState} {raws : List Half} {q : FilterState × List Half}
    (h : filterRun c f raws = .next q) : q.2.length = raws.length := by
  induction raws generalizing f q with
  | nil => cases h; rfl
  | cons raw rest ih =>
    obtain ⟨r, q', -, hrest, rfl⟩ := filterRun_cons_eq_next h
    simp only [List.length_cons, ih hrest]

/-- R110: every output is a clamped value. -/
theorem filterRun_saturated {c : FilterConfiguration} {f : FilterState} {raws : List Half}
    {q : FilterState × List Half} (h : filterRun c f raws = .next q) :
    ∀ o ∈ q.2, -32767 ≤ o.toInt ∧ o.toInt ≤ 32767 := by
  induction raws generalizing f q with
  | nil => cases h; exact nofun
  | cons raw rest ih =>
    obtain ⟨⟨f', o⟩, q', hsample, hrest, rfl⟩ := filterRun_cons_eq_next h
    obtain ⟨-, -, y, -, -, rfl⟩ := sampleStep_eq_next.mp hsample
    refine List.forall_mem_cons.mpr ⟨?_, ih hrest⟩
    rw [outElement_sat16_toInt]
    exact sat16_bounds y

/-- The configurations have the same four coefficients; SEL may differ. -/
structure SameCoefficients (c c' : FilterConfiguration) : Prop where
  ca2 : c.ca2 = c'.ca2
  cb0 : c.cb0 = c'.cb0
  cb1 : c.cb1 = c'.cb1
  cb2 : c.cb2 = c'.cb2

/-- R118: the biquad reads the four coefficients and not SEL. -/
theorem bqStep_congr {c c' : FilterConfiguration} (h : SameCoefficients c c') : bqStep c = bqStep c' := by
  obtain ⟨sel, ca2, cb0, cb1, cb2⟩ := c
  obtain ⟨sel', ca2', cb0', cb1', cb2'⟩ := c'
  obtain ⟨rfl, rfl, rfl, rfl⟩ := h
  rfl

theorem filterRun_congr {c c' : FilterConfiguration} (h : SameCoefficients c c') (f : FilterState) (raws : List Half) :
    filterRun c f raws = filterRun c' f raws := by
  induction raws generalizing f with
  | nil => rfl
  | cons raw rest ih => simp only [filterRun_cons, sampleStep, bqStep_congr h, ih]

/-! ### `PROC` and its output buffer -/

section Proc

variable {s t : State} {c : FilterConfiguration} {out inp count : Word} {n : Nat}

/-- Ordinary buffers that pass the checks of R119 pass the model's tests, also where there are no samples. -/
theorem passed_of_buffersOk {map : List Region} {out inp n : Nat} (h : BuffersOk map out inp n) :
    bufferFault map out inp n = none ∧ touchesDevice map out inp n = false := by
  refine ⟨?_, touchesDevice_eq_false.mpr ⟨h.inpOrdinary, h.outOrdinary⟩⟩
  obtain rfl | hn := Nat.eq_zero_or_pos n
  · exact bufferFault_zero map out inp
  · exact (bufferFault_eq_none_iff_checksPass hn).mpr h.toChecksPass

/-- R115: over such buffers `PROC` is its loop. -/
theorem exec_proc_of_buffersOk (hc : ConfiguredWith s c) (hcount : sampleCount count = n)
    (hbuf : BuffersOk s.regions out.toNat inp.toNat n) :
    exec (.proc out inp count) s =
      andThen (procLoop c out.toNat inp.toNat n 0 s.filter s.mem) fun r =>
      .next { s with filter := r.1, mem := r.2, mode := .running, pc := s.pc + 4 } :=
  exec_proc_of_passed hc hcount (passed_of_buffersOk hbuf).1 (passed_of_buffersOk hbuf).2

/-- R115, R118: over such buffers `PROC` is the filter over the input elements, and then the writes. -/
theorem exec_proc_eq_filterRun (hc : ConfiguredWith s c) (hcount : sampleCount count = n)
    (hbuf : BuffersOk s.regions out.toNat inp.toNat n) :
    exec (.proc out inp count) s =
      andThen (filterRun c s.filter (elems s.mem inp.toNat n)) fun q =>
      .next { s with filter := q.1, mem := writeElems s.mem out.toNat q.2, mode := .running, pc := s.pc + 4 } := by
  rw [exec_proc_of_buffersOk hc hcount hbuf, procLoop_eq_filterRun_of_bufferFault (passed_of_buffersOk hbuf).1,
    andThen_assoc]
  rfl

/-- What a `PROC` that completes has found and done. -/
theorem exec_proc_completed (h : exec (.proc out inp count) s = .next t) (ht : t.cause = none) :
    ∃ c, ConfiguredWith s c ∧
      (0 < sampleCount count → BuffersOk s.regions out.toNat inp.toNat (sampleCount count)) ∧ t.mode = .running ∧
      t.config = s.config := by
  obtain ⟨cause, rfl⟩ | hcompletes := exec_eq_next h
  · cases ht
  · cases hcompletes with
    | @proc _ _ _ c r hconfig hchecks hdevice _ =>
      obtain ⟨hinp, hout⟩ := touchesDevice_eq_false.mp hdevice
      exact ⟨c, (activeConfig_eq_some_iff s c).mp hconfig, fun hn =>
        { (bufferFault_eq_none_iff_checksPass hn).mp hchecks with inpOrdinary := hinp, outOrdinary := hout }, rfl, rfl⟩

/-- The output buffer after the filter's outputs have been written holds them, and memory is canonical. -/
theorem written_outputs {f : FilterState} {q : FilterState × List Half} (hm : Mem.wf s.mem = true)
    (hbuf : BuffersOk s.regions out.toNat inp.toNat n)
    (hrun : filterRun c f (elems s.mem inp.toNat n) = .next q) :
    q.2.length = n ∧ (writeElems s.mem out.toNat q.2).wf = true ∧
      elems (writeElems s.mem out.toNat q.2) out.toNat n = q.2 := by
  have hlength : q.2.length = n := (filterRun_length hrun).trans (elems_length _ _ _)
  have hspec := writeElems_spec (base := out.toNat) (vs := q.2) hm (by rw [hlength]; exact hbuf.outInSpace)
  rw [hlength] at hspec
  exact ⟨hlength, hspec⟩

end Proc

/-- Settles O33: the command is the filter and then the writes, which read back and touch no other byte. -/
theorem procIsTheFilterOverTheBuffer : Obligations.ProcIsTheFilterOverTheBuffer := by
  intro s c out inp count n f outs hc hm hcount hn hbuf hrun
  obtain ⟨hlength, hwf, helems⟩ := written_outputs hm hbuf hrun
  refine ⟨_, exec_proc_of_filterRun hc hcount hn hbuf hrun, helems, hwf, fun a ha => writeElems_byteAt_outside ?_⟩
  rwa [hlength]

/-- Settles O38: a completed `PROC` has passed the checks, so its output buffer holds outputs of the filter. -/
theorem procOutputsAreSaturated : Obligations.ProcOutputsAreSaturated := by
  intro s t out inp count i hm _ h ht hi
  have hcount : i < sampleCount count := by simp only [sampleCount, sext32]; omega
  obtain ⟨c, hc, hbuf, -⟩ := exec_proc_completed h ht
  have hbuf := hbuf (by omega)
  rw [exec_proc_eq_filterRun hc rfl hbuf] at h
  obtain ⟨q, hrun, ⟨⟩⟩ := andThen_eq_next.mp h
  obtain ⟨-, -, helems⟩ := written_outputs hm hbuf hrun
  have hmem := elemAt_mem_elems (writeElems s.mem out.toNat q.2) out.toNat hcount
  rw [helems] at hmem
  exact filterRun_saturated hrun _ hmem

/-- Settles O40: both commands are the filter with the same coefficients from the same FilterState over the same
samples, and so write the same outputs. -/
theorem procDependsOnlyOnItsInputs : Obligations.ProcDependsOnlyOnItsInputs := by
  intro s1 s2 t1 c1 c2 out inp count n hc1 hc2 hca2 hcb0 hcb1 hcb2 hfilter hregions hm1 hm2 hcount helems hbuf h
  have hn := sampleCount_eq_of_toInt hcount
  have hbuf2 : BuffersOk s2.regions out.toNat inp.toNat n := hregions ▸ hbuf
  rw [exec_proc_eq_filterRun hc1 hn hbuf] at h
  obtain ⟨q, hrun1, ⟨⟩⟩ := andThen_eq_next.mp h
  have hrun2 : filterRun c2 s2.filter (elems s2.mem inp.toNat n) = .next q := by
    rw [← filterRun_congr ⟨hca2, hcb0, hcb1, hcb2⟩, ← hfilter, ← helems, hrun1]
  obtain ⟨-, -, hout1⟩ := written_outputs hm1 hbuf hrun1
  obtain ⟨-, -, hout2⟩ := written_outputs hm2 hbuf2 hrun2
  have hexec2 := exec_proc_eq_filterRun hc2 hn hbuf2
  rw [hrun2, andThen_next] at hexec2
  exact ⟨_, hexec2, rfl, hout2.trans hout1.symm⟩

/-! ### One `PROC` as two -/

/-- The loop of `n + k` turns is the loop of `n` turns and then of `k` more. -/
theorem procLoop_add (c : FilterConfiguration) (out inp n k i : Nat) (f : FilterState) (m : Mem) :
    procLoop c out inp (n + k) i f m =
      andThen (procLoop c out inp n i f m) fun r => procLoop c out inp k (i + n) r.1 r.2 := by
  induction n generalizing i f m with
  | zero => rw [Nat.zero_add]; rfl
  | succ n ih =>
    have hturns : n + 1 + k = n + k + 1 := by omega
    have hindex : i + 1 + n = i + (n + 1) := by omega
    simp only [hturns, procLoop_succ, andThen_assoc, ih, hindex]

/-- The loop from index `i + n` on is the loop from `i` on over buffers that start `n` elements later. -/
theorem procLoop_shift (c : FilterConfiguration) (out inp n k i : Nat) (f : FilterState) (m : Mem) :
    procLoop c out inp k (i + n) f m = procLoop c (elemAddr out n) (elemAddr inp n) k i f m := by
  induction k generalizing i f m with
  | zero => rfl
  | succ k ih =>
    have hindex : i + n + 1 = i + 1 + n := by omega
    have haddr (base : Nat) : elemAddr base (i + n) = elemAddr (elemAddr base n) i := by simp only [elemAddr]; omega
    simp only [procLoop_succ, haddr, hindex, ih]

/-- Any part of a `PROC`'s buffers passes the checks and is ordinary memory with them. -/
theorem buffersOk_part {map : List Region} {out inp n : Nat} (h : BuffersOk map out inp n) {i k : Nat} (hle : i + k ≤ n) :
    BuffersOk map (elemAddr out i) (elemAddr inp i) k := by
  obtain ⟨⟨hout, hinp, hos, his, hapart, hread, hwrite⟩, hdi, hdo⟩ := h
  simp only [elemAddr]
  exact ⟨⟨by omega, by omega, by omega, by omega, by omega, fun a hlo hhi => hread a (by omega) (by omega),
    fun a hlo hhi => hwrite a (by omega) (by omega)⟩, fun a hlo hhi => hdi a (by omega) (by omega),
    fun a hlo hhi => hdo a (by omega) (by omega)⟩

theorem toNat_eq_sampleCount {n : Word} (h : 0 ≤ n.toInt) : n.toNat = sampleCount n :=
  (BitVec.toNat_toInt_of_sle (BitVec.sle_iff_toInt_le.mpr (by simpa using h))).symm

theorem sampleCount_add {n m : Word} (hn : 0 ≤ n.toInt) (hm : 0 ≤ m.toInt) (hsum : n.toInt + m.toInt < 2 ^ 31) :
    sampleCount (n + m) = sampleCount n + sampleCount m := by
  have hadd : (n + m).toInt = n.toInt + m.toInt := by
    rw [BitVec.toInt_add]
    exact Int.bmod_eq_of_le (by omega) (by omega)
  simp only [sampleCount, sext32, hadd]
  omega

/-- R117's `base + 2*n` of the second part, which has samples left and so starts inside the address space. -/
theorem toNat_add_two_mul {base n : Word} {k : Nat} (hn : 0 ≤ n.toInt) (hk : 0 < k)
    (hspace : base.toNat + 2 * (sampleCount n + k) ≤ 2 ^ 32) :
    (base + 2 * n).toNat = elemAddr base.toNat (sampleCount n) := by
  have htwo : (2 : Word).toNat = 2 := rfl
  rw [← toNat_eq_sampleCount hn] at hspace ⊢
  rw [BitVec.toNat_add, BitVec.toNat_mul, htwo, elemAddr]
  omega

/-- R117 where the second part has samples: the loop of the whole is the loops of the two parts one after the other, and
each part's buffers pass the checks with the whole's. -/
theorem exec_proc_split {s t : State} {c : FilterConfiguration} {out inp n m : Word} (hc : ConfiguredWith s c)
    (hn : 0 ≤ n.toInt) (hm : 0 < sampleCount m) (hcount : sampleCount (n + m) = sampleCount n + sampleCount m)
    (hbuf : BuffersOk s.regions out.toNat inp.toNat (sampleCount n + sampleCount m))
    (h : exec (.proc out inp (n + m)) s = .next t) :
    ∃ u, exec (.proc out inp n) s = .next u ∧ u.cause = s.cause ∧
      exec (.proc (out + 2 * n) (inp + 2 * n) m) u = .next { t with pc := t.pc + 4 } := by
  have hout := toNat_add_two_mul hn hm hbuf.outInSpace
  have hinp := toNat_add_two_mul hn hm hbuf.inpInSpace
  have hfirst := exec_proc_of_buffersOk (count := n) hc rfl (buffersOk_part hbuf (i := 0) (by omega))
  have hpart := buffersOk_part hbuf (i := sampleCount n) le_rfl
  rw [← hout, ← hinp] at hpart
  rw [exec_proc_of_buffersOk hc hcount hbuf, procLoop_add, andThen_assoc] at h
  obtain ⟨r, hloop, h⟩ := andThen_eq_next.mp h
  rw [procLoop_shift, ← hout, ← hinp] at h
  obtain ⟨q, hloop', ⟨⟩⟩ := andThen_eq_next.mp h
  have hsecond := exec_proc_of_buffersOk (count := m)
    (s := { s with filter := r.1, mem := r.2, mode := .running, pc := s.pc + 4 }) ⟨nofun, hc.2⟩ rfl hpart
  rw [hloop, andThen_next] at hfirst
  rw [hloop', andThen_next] at hsecond
  exact ⟨_, hfirst, rfl, hsecond⟩

/-- Settles O37: where the second part has no samples the first is the whole, and the second checks no address. -/
theorem procStateContinuity : Obligations.ProcStateContinuity := by
  intro s t out inp n m hn hm hsum _ hs h ht
  have hcount := sampleCount_add hn hm hsum
  obtain ⟨c, hc, hbuf, hrunning, hkept⟩ := exec_proc_completed h ht
  obtain hm0 | hmpos := Nat.eq_zero_or_pos (sampleCount m)
  · have hzero : m = 0#32 := BitVec.eq_of_toNat_eq ((toNat_eq_sampleCount hm).trans hm0)
    have hct : ConfiguredWith t c := ⟨by simp [hrunning], hkept.trans hc.2⟩
    rw [hzero, BitVec.add_zero] at h
    refine ⟨t, h, ht, ?_⟩
    rw [exec_proc_of_sampleCount_eq_zero hct hm0, ← hrunning]
  · obtain ⟨u, hfirst, hcause, hsecond⟩ := exec_proc_split hc hn hmpos hcount (hcount ▸ hbuf (by omega)) h
    exact ⟨u, hfirst, hcause.trans hs, hsecond⟩

end Sys2Proof.Proofs
end

section
/-! SUPPORT. What the two commands of the reference blocker answer where the build has it, and the obligations that rest
on it (spec/44_reference_blocker.md). -/

namespace Sys2Proof.Proofs

open Sys2Proof.Machine Sys2Proof.Laws

/-! ### `RDC.SET` -/

theorem exec_rdcSet_of_refdc_eq_some {s : State} {b : RefBlocker} (hs : s.refdc = some b) (coeff : Word) :
    exec (.rdcSet coeff) s = .next
      { s with refdc := some { b with rcoef := some (wide (clamp coeff.toInt 3 8000)) }, pc := s.pc + 2 } := by
  obtain ⟨hnone, -⟩ | ⟨b', hsome, hexec⟩ := execRdcSet_cases coeff s
  · cases hs.symm.trans hnone
  · cases hs.symm.trans hsome
    exact hexec

/-- What RCOEF reads back as after `RDC.SET` (R126). -/
theorem toInt_wide_clamp_rcoef (v : Int) : (wide (clamp v 3 8000)).toInt = clamp v 3 8000 := by
  obtain ⟨hlo, hhi, -⟩ := clamp_spec (v := v) (lo := 3) (hi := 8000) (by decide)
  exact toInt_wide ((fitsWide_iff _).mpr (by omega))

/-- Settles O44: the clamp keeps the operand inside 64 bits, so RCOEF reads back as the clamped integer. -/
theorem rdcSetClamps : Obligations.RdcSetClamps := by
  intro s coeff
  have hwords : encode (.rdcSet coeff) = [0x00000010, coeff] := rfl
  exact ⟨hwords, fun b hb => ⟨_, exec_rdcSet_of_refdc_eq_some hb coeff, toInt_wide_clamp_rcoef coeff.toInt⟩,
    fun hnone => exec_rdcSet_of_refdc_eq_none hnone coeff⟩

/-! ### `RDC.STEP` -/

/-- The values of a step that R129 and notes/assumptions/11.md check: the product, the new RACC and the new ROUT. -/
def rdcChecked (input : Word) (coef : Wide) (b : RefBlocker) : List Int :=
  [rdcProduct coef b.rout, rdcAcc coef b.racc b.rout, rdcOut input (rdcAcc coef b.racc b.rout)]

/-- R127's ROUT, with its shift written as the floor of a quotient. -/
theorem rdcOut_eq (input : Word) (acc : Int) :
    rdcOut input acc = (Config.refPre input).toInt - Int.fdiv acc 16384 :=
  congrArg ((Config.refPre input).toInt - ·) (asr_eq_fdiv acc 14)

/-- R127's values in the spec's numbers. -/
theorem rdcChecked_eq (input : Word) (coef : Wide) (b : RefBlocker) :
    rdcChecked input coef b = [b.rout.toInt * coef.toInt, b.racc.toInt + b.rout.toInt * coef.toInt,
      (Config.refPre input).toInt - Int.fdiv (b.racc.toInt + b.rout.toInt * coef.toInt) 16384] := by
  simp only [rdcChecked, rdcOut_eq, rdcAcc, rdcProduct]

/-- The state a completed `RDC.STEP` leaves (R127). -/
def rdcStepped (input : Word) (coef : Wide) (b : RefBlocker) (s : State) : State :=
  { s with
    refdc := some
      { racc := wide (rdcAcc coef b.racc b.rout)
        rcoef := some coef
        rout := wide (rdcOut input (rdcAcc coef b.racc b.rout)) }
    results := s.results ++ [wide (rdcOut input (rdcAcc coef b.racc b.rout))]
    pc := s.pc + 2 }

section Step

variable {s : State} {b : RefBlocker} {coef : Wide} (hs : s.refdc = some b)
include hs

theorem exec_rdcStep_of_rcoef_eq_none (hcoef : b.rcoef = none) (input : Word) :
    exec (.rdcStep input) s = .next { s with cause := some .notConfigured } := by
  simp only [exec, execRdcStep, hs, hcoef, raise_eq]

/-- R127, R129: with a written RCOEF the step answers exactly if the checked values fit. -/
theorem exec_rdcStep_of_rcoef_eq_some (hcoef : b.rcoef = some coef) (input : Word) :
    exec (.rdcStep input) s =
      if (rdcChecked input coef b).all fitsWide then .next (rdcStepped input coef b s) else .refused .wideOverflow := by
  simp only [exec, execRdcStep, hs, hcoef, rdcChecked, rdcStepped, List.all_cons, List.all_nil, Bool.and_true,
    Bool.and_assoc, complete_eq, pushResult]

end Step

/-- Settles O45: the given values are the checked ones, so the step answers, and the new RACC and ROUT read back from
their registers. -/
theorem rdcStepComputesOrFaults : Obligations.RdcStepComputesOrFaults := by
  intro s b input hs
  have hwords : encode (.rdcStep input) = [0x00000011, input] := rfl
  refine ⟨hwords, fun hcoef => exec_rdcStep_of_rcoef_eq_none hs hcoef input, ?_⟩
  rintro coef _ _ _ hcoef rfl rfl rfl hvalues
  rw [← rdcChecked_eq] at hvalues
  have hfits : ∀ v ∈ rdcChecked input coef b, fitsWide v = true := fun v hv => by
    obtain ⟨hlo, hhi⟩ := hvalues v hv
    exact (fitsWide_iff v).mpr ⟨hlo, Int.le_sub_one_of_lt hhi⟩
  have hexec := exec_rdcStep_of_rcoef_eq_some hs hcoef input
  rw [if_pos (List.all_eq_true.mpr hfits)] at hexec
  simp only [rdcChecked, List.forall_mem_cons] at hfits
  obtain ⟨-, hacc, hout, -⟩ := hfits
  exact ⟨_, _, hexec, toInt_wide hacc, (toInt_wide hout).trans (rdcOut_eq input _)⟩

/-- Settles O58: each of the given values is checked, and one that does not fit refuses the step. -/
theorem rdcStepOverflowIsRefused : Obligations.RdcStepOverflowIsRefused := by
  rintro s b input coef _ _ _ hs hcoef rfl rfl rfl ⟨v, hv, hover⟩
  rw [← rdcChecked_eq] at hv
  refine (exec_rdcStep_of_rcoef_eq_some hs hcoef input).trans (if_neg fun hfits => ?_)
  have hfit : fitsWide v = true := List.all_eq_true.mp hfits v hv
  rw [(fitsWide_eq_false_iff v).mpr hover] at hfit
  exact Bool.false_ne_true hfit

end Sys2Proof.Proofs
end

section
/-! SUPPORT. What `RSTATE` and `RDREG` answer, and the obligations that rest on it (spec/45_state_ops.md). -/

namespace Sys2Proof.Proofs

open Sys2Proof.Machine Sys2Proof.Safety Sys2Proof.Laws

/-! ### `RSTATE` -/

theorem exec_rstate_eq (s : State) :
    exec .rstate s = .next { s with filter := FilterState.zero, pc := s.pc + 1 } :=
  execRstate_eq s

/-- Settles O15: the word is the header of R61 with OP 3, and the next state is `RSTATE`'s own. -/
theorem rstateClearsFilterState : Obligations.RstateClearsFilterState := by
  have hword : encode .rstate = [0x00000003] := by decide
  exact ⟨hword, exec_rstate_eq⟩

/-- Settles O41: after `RSTATE` and after a reset with `INIT` the same configuration is active and FilterState is zero,
over the same memory and map, and that is all a `PROC` depends on (R118). -/
theorem rstateIsACleanStart : Obligations.RstateIsACleanStart := by
  intro s t sel out inp count n hconfig hmode hm hcount hbuf h
  rw [exec_rstate_eq, andThen_next] at h
  rw [exec_init_eq, andThen_next]
  have hcleared : ConfiguredWith { s with filter := FilterState.zero, pc := s.pc + 1 } (configOf (resolve sel.toInt)) :=
    ⟨hmode, hconfig⟩
  exact procDependsOnlyOnItsInputs _ _ t _ _ out inp count n hcleared ⟨Mode.noConfusion, rfl⟩
    rfl rfl rfl rfl rfl rfl hm hm hcount rfl hbuf h

/-! ### What `RDREG` reads -/

section Read

variable {s : State}

/-- R26, R149: the configuration registers read sign-extended once the block is configured. -/
theorem readConfig_of_configured {c : FilterConfiguration} (hc : ConfiguredWith s c)
    (field : FilterConfiguration → Word) : readConfig s field = .ok ((field c).signExtend 64) := by
  have hactive : activeConfig s = some c := (activeConfig_eq_some_iff s c).mpr hc
  simp only [readConfig, hactive, sextWide]

theorem readConfig_of_uninitialized (h : s.mode = .uninitialized) (field : FilterConfiguration → Word) :
    readConfig s field = .error .notConfigured := by
  simp only [readConfig, activeConfig_uninitialized s h]

theorem readRefdc_of_refdc_eq_some {b : RefBlocker} (hs : s.refdc = some b) (field : RefBlocker → Wide) :
    readRefdc s field = .ok (field b) := by
  simp only [readRefdc, hs]

theorem readRefdc_of_refdc_eq_none (hs : s.refdc = none) (field : RefBlocker → Wide) :
    readRefdc s field = .error .illegalCommand := by
  simp only [readRefdc, hs]

theorem readRcoef_of_refdc_eq_none (hs : s.refdc = none) : readRcoef s = .error .illegalCommand := by
  simp only [readRcoef, hs]

theorem readRcoef_of_written {b : RefBlocker} {v : Wide} (hs : s.refdc = some b) (hcoef : b.rcoef = some v) :
    readRcoef s = .ok v := by
  simp only [readRcoef, hs, hcoef]

theorem readRcoef_of_unwritten {b : RefBlocker} (hs : s.refdc = some b) (hcoef : b.rcoef = none) :
    readRcoef s = .error .notConfigured := by
  simp only [readRcoef, hs, hcoef]

/-! ### `RDREG` -/

/-- R137: a register that reads as a value is pushed. -/
theorem exec_rdreg_of_ok {r : RegName} {v : Wide} (h : readReg s r = .ok v) :
    exec (.rdreg r) s = .next { s with results := s.results ++ [v], pc := s.pc + 1 } := by
  simp only [exec, execRdreg, h, complete_eq, pushResult]

/-- R137, R152: a register that cannot be read raises its cause. -/
theorem exec_rdreg_of_error {r : RegName} {c : Cause} (h : readReg s r = .error c) :
    exec (.rdreg r) s = .next { s with cause := some c } := by
  simp only [exec, execRdreg, h, raise_eq]

end Read

theorem encode_rdreg (r : RegName) : encode (.rdreg r) = [BitVec.ofNat 32 (4 + 256 * r.number.toNat)] := by
  have hword : headerOf (.rdreg r) = BitVec.ofNat 32 (4 + 256 * r.number.toNat) := by
    rw [← headerOf_rdreg_toNat, BitVec.ofNat_toNat, BitVec.setWidth_eq]
  exact congrArg (fun h => [h]) hword

/-- R69: an `RDREG` header with a register number from 14 to 255 is legal on no build. -/
theorem decodeHeader_rdreg_ne_legal (refdc : Bool) {n : Nat} (hlo : 14 ≤ n) (hhi : n ≤ 255) (op : Opcode) :
    decodeHeader refdc (BitVec.ofNat 32 (4 + 256 * n)) ≠ .legal op := by
  intro hd
  have hmapped := (headerIsLegalExactlyAsMapped refdc _).mp ⟨op, hd⟩
  have hnat : (BitVec.ofNat 32 (4 + 256 * n)).toNat = 4 + 256 * n := Nat.mod_eq_of_lt (by omega)
  rw [hnat] at hmapped
  omega

/-- Settles O17: each register's clause is what it reads as, pushed or raised; a number that names no register never
reaches `RDREG`, its header being illegal. -/
theorem rdregPushesTheRegisterOrFaults : Obligations.RdregPushesTheRegisterOrFaults := by
  refine ⟨encode_rdreg, fun s => ⟨exec_rdreg_of_ok rfl, exec_rdreg_of_ok rfl, exec_rdreg_of_ok rfl,
    exec_rdreg_of_ok rfl, exec_rdreg_of_ok rfl, exec_rdreg_of_ok rfl, ?configured, ?uninitialized, ?refdc, ?noRefdc,
    ?noRegister⟩⟩
  case configured =>
    intro c hc
    have hread := readConfig_of_configured hc
    exact ⟨exec_rdreg_of_ok (hread _), exec_rdreg_of_ok (hread _), exec_rdreg_of_ok (hread _),
      exec_rdreg_of_ok (hread _), exec_rdreg_of_ok (hread _)⟩
  case uninitialized =>
    intro hmode
    have hread := readConfig_of_uninitialized hmode
    exact ⟨exec_rdreg_of_error (hread _), exec_rdreg_of_error (hread _), exec_rdreg_of_error (hread _),
      exec_rdreg_of_error (hread _), exec_rdreg_of_error (hread _)⟩
  case refdc =>
    intro b hs
    exact ⟨exec_rdreg_of_ok (readRefdc_of_refdc_eq_some hs _), exec_rdreg_of_ok (readRefdc_of_refdc_eq_some hs _),
      fun v hcoef => exec_rdreg_of_ok (readRcoef_of_written hs hcoef),
      fun hcoef => exec_rdreg_of_error (readRcoef_of_unwritten hs hcoef)⟩
  case noRefdc =>
    intro hs
    exact ⟨exec_rdreg_of_error (readRefdc_of_refdc_eq_none hs _), exec_rdreg_of_error (readRcoef_of_refdc_eq_none hs),
      exec_rdreg_of_error (readRefdc_of_refdc_eq_none hs _)⟩
  case noRegister =>
    intro n rest hlo hhi hcause hfetch
    exact step_of_illegal_header hcause hfetch (decodeHeader_rdreg_ne_legal _ hlo hhi)

end Sys2Proof.Proofs
end

section
/-! SUPPORT. The states in which the block does nothing, what a delivery adds to the words at `pc`, the commands that
can be refused, and the obligations of spec/60_exceptions.md. -/

namespace Sys2Proof.Proofs

open Sys2Proof.Machine Sys2Proof.Safety Sys2Proof.Laws

/-! ### Halted and waiting blocks -/

/-- R152. -/
theorem step_of_halted {s : State} (h : Halted s) : step s = .next s := by
  obtain ⟨c, hc⟩ := h
  simp only [step, hc]

/-- R163. -/
theorem step_of_wait {s : State} (hc : s.cause = none) (hw : decode s.refdc.isSome (fetch s) = .wait) :
    step s = .next s := by
  simp only [step, hc, hw]

/-- R164: at the end of a run every word is consumed. -/
theorem fetch_eq_nil_of_runEnded {s : State} (h : RunEnded s) : fetch s = [] := by
  obtain ⟨hpc, -⟩ := h
  rw [fetch, hpc, List.drop_length]

theorem not_runEnded_of_halted {s : State} (h : Halted s) : ¬RunEnded s := by
  rintro ⟨-, hnone⟩
  obtain ⟨c, hc⟩ := h
  cases hnone.symm.trans hc

/-- Settles O8: delivered words change no cause, so the block is still halted after them. -/
theorem haltedBlockExecutesNothing : Obligations.HaltedBlockExecutesNothing := by
  intro s c ws hc
  exact ⟨step_of_halted ⟨c, hc⟩, step_of_halted ⟨c, hc⟩, resetInput_cause s⟩

/-- Settles O10: no word is left at the end of a run, while a block that waits inside a command has words left. -/
theorem endOfRunIsQuiet : Obligations.EndOfRunIsQuiet := by
  refine ⟨?ended, fun s => not_runEnded_of_halted, ?waiting⟩
  case ended =>
    intro s h
    have hc : s.cause = none := h.2
    exact step_of_fetch_eq_nil hc (fetch_eq_nil_of_runEnded h)
  case waiting =>
    rintro s ⟨hc, hwait, hwords⟩
    exact ⟨step_of_wait hc hwait, mt fetch_eq_nil_of_runEnded hwords⟩

/-! ### Incomplete commands -/

/-- R163: a proper first part of a command decodes to nothing yet. The decoder never looks ahead, so an answer to the
part would be its answer to the whole command, whose words are not all there. -/
theorem decode_take_encode {refdc : Bool} {i : Instr} {k : Nat} (hwf : WellFormed refdc i = true) (hk : k < i.words) :
    decode refdc ((encode i).take k) = .wait := by
  by_contra hanswer
  have hpart : decode refdc ((encode i).take k) = .command i := by
    rw [← decoderNeverLooksAhead refdc _ ((encode i).drop k) hanswer, List.take_append_drop]
    exact decode_eq_command_iff.mpr ⟨hwf, [], (List.append_nil _).symm⟩
  have hwords : i.words ≤ ((encode i).take k).length := words_le_of_decode hpart
  have htake : ((encode i).take k).length ≤ k := List.length_take_le _ _
  omega

/-- R60: delivered words come after those not yet consumed. -/
theorem fetch_deliverWords {s : State} (h : fetch s ≠ []) (ws : List Word) :
    fetch (deliverWords ws s) = fetch s ++ ws := by
  have hpc : s.pc < s.stream.length := by simpa [fetch] using h
  exact List.drop_append_of_le_length hpc.le

/-- Settles O7: the part decodes to nothing yet, and with the missing words delivered the words at `pc` begin with the
whole command. -/
theorem incompleteCommandWaits : Obligations.IncompleteCommandWaits := by
  intro s i k hc hwf hk hpart
  have hfetch : fetch s = (encode i).take k := hpart
  refine ⟨step_of_wait hc (hfetch ▸ decode_take_encode hwf hk), fun hpos => ?_⟩
  have hwords : fetch s ≠ [] := by
    rw [hfetch, encode_eq_cons]
    simp [hpos.ne']
  refine ⟨mt fetch_eq_nil_of_runEnded hwords, fun more => stepRunsTheDecodedCommand _ i hc ?_⟩
  have hwhole : fetch (deliverWords ((encode i).drop k ++ more) s) = encode i ++ more := by
    rw [fetch_deliverWords hwords, hfetch, ← List.append_assoc, List.take_append_drop]
  exact decode_eq_command_iff.mpr ⟨hwf, more, hwhole⟩

/-! ### Faults -/

/-- Settles O9: `step_of_illegal_header`, stated of the words at `pc`. -/
theorem illegalHeaderFaultsAtOnce : Obligations.IllegalHeaderFaultsAtOnce :=
  fun _ _ _ hc hfetch hillegal => step_of_illegal_header hc hfetch (not_exists.mp hillegal)

/-- Settles O51: of the three things a step can do only a fault entry leaves a cause that was not there, and it writes
nothing else. -/
theorem faultsArePrecise : Obligations.FaultsArePrecise := by
  intro s t c hs h ht
  obtain rfl | ⟨c', rfl⟩ | ⟨i, -, hcompletes⟩ := step_eq_next_cases h
  · cases hs.symm.trans ht
  · cases ht
    rfl
  · cases (hcompletes.cause_eq.trans hs).symm.trans ht

/-! ### Refusals -/

/-- R47, R165: the loop's refusals are those of a sample step, and before it only the test for devices refuses. -/
theorem execProc_eq_refused {out inp count : Word} {s : State} {r : Refusal}
    (h : execProc out inp count s = .refused r) : r = .inputOutOfRange ∨ r = .wideOverflow ∨ r = .deviceRegion := by
  unfold execProc procBuffers at h
  split at h
  · cases h
  · split at h
    · cases h
    · split at h
      · cases h
        exact .inr (.inr rfl)
      · obtain hloop | ⟨q, -, ⟨⟩⟩ := andThen_eq_refused.mp h
        exact (procLoop_eq_refused hloop).imp_right .inl

/-- R129: `RDC.STEP` is refused only for an overflow; without the option or a written RCOEF it faults. -/
theorem exec_rdcStep_eq_refused {input : Word} {s : State} {r : Refusal}
    (h : exec (.rdcStep input) s = .refused r) : r = .wideOverflow := by
  cases hrefdc : s.refdc with
  | none => cases (exec_rdcStep_of_refdc_eq_none hrefdc input).symm.trans h
  | some b =>
    cases hrcoef : b.rcoef with
    | none => cases (exec_rdcStep_of_rcoef_eq_none hrefdc hrcoef input).symm.trans h
    | some coef =>
      rw [exec_rdcStep_of_rcoef_eq_some hrefdc hrcoef] at h
      split at h <;> cases h
      rfl

/-- Settles O55: `INIT` and `RSTATE` complete, `RDREG` and `RDC.SET` complete or fault, and the other two have the
refusals above. -/
theorem onlyProcAndRdcStepAreRefused : Obligations.OnlyProcAndRdcStepAreRefused := by
  intro i s r h
  cases i with
  | init | rstate => cases h
  | proc out inp count => exact ⟨.inl ⟨out, inp, count, rfl⟩, execProc_eq_refused h⟩
  | rdreg reg =>
    obtain ⟨_, -, he⟩ | ⟨_, -, he⟩ := execRdreg_cases reg s <;> cases he.symm.trans h
  | rdcSet coeff =>
    obtain ⟨-, he⟩ | ⟨_, -, he⟩ := execRdcSet_cases coeff s <;> cases he.symm.trans h
  | rdcStep input =>
    have hr : r = .wideOverflow := exec_rdcStep_eq_refused h
    exact ⟨.inr ⟨⟨input, rfl⟩, hr⟩, .inr (.inl hr)⟩

end Sys2Proof.Proofs
end

section
/-! SUPPORT. The order of the commands before the first `PROC` (spec/70_reset_and_hazards.md). -/

namespace Sys2Proof.Proofs

open Sys2Proof.Machine Sys2Proof.Laws

/-- Settles O16: `INIT` writes the configuration and MODE, `RSTATE` writes FilterState, and only `pc` is advanced by
both, by 2 and by 1. -/
theorem initAndRstateCommute : Obligations.InitAndRstateCommute := by
  intro sel s
  have hpc : s.pc + 2 + 1 = s.pc + 1 + 2 := Nat.add_right_comm s.pc 2 1
  simp only [exec_init_eq, exec_rstate_eq, andThen_next, hpc]
  exact ⟨trivial, _, rfl⟩

end Sys2Proof.Proofs
end
